-- ==== Sys2Proof/Word.lean ====
section
/-! DEFINITION. The widths of the block (rules R7, R8) and a group of eight 32-bit words. -/

namespace Sys2Proof

/-- A 32-bit unsigned word (R7, R9); `+` is addition modulo 2^32 (R114). -/
abbrev Word := BitVec 32

/-- One message byte (R24). -/
abbrev Byte := BitVec 8

/-- A command word of the port (R62). -/
abbrev CmdWord := BitVec 16

/-- A 512-bit block, the value of `MemRead(0, 64)` (R11). -/
abbrev Block := BitVec 512

/-- Eight words: the accumulator H[0..7] (R21), or the working variables a..h (R103). -/
structure Words8 where
  w0 : Word
  w1 : Word
  w2 : Word
  w3 : Word
  w4 : Word
  w5 : Word
  w6 : Word
  w7 : Word
  deriving DecidableEq, Repr

end Sys2Proof
end

