-- ==== Sys2Proof/Config.lean ====
section
/-! DEFINITION. What the spec leaves open: free values, which no proof can evaluate. -/

namespace Sys2Proof

/-- FREE VALUE (DESIGN CHOICE of form, log entry 3; safe). How many clock edges pass between the
acceptance of a command and the edge from which its response is offered. R61 item 5: the count "is not
specified and may depend on the command and the state. It is finite". So it is applied to the command
word and to the whole engine state at acceptance (H, BUF, LEN, PHASE, CAUSE), to how many commands came
before, and to a seed of the engine's own, so that no two engines share their latencies (R162). -/
opaque Config.latency (seed accepted : Nat) (w : CmdWord) (h : Words8) (buf : List (Nat × Byte))
    (len : BitVec 64) (phase : BitVec 2) (cause : BitVec 4) : Nat

/-- FREE VALUE (log entry 6; safe). How many engines there are beyond the first one. -/
opaque Config.extraEngines : Nat

/-- `N_ENGINES` of R7: "a parameter of the model, at least 1". -/
def Config.nEngines : Nat := Config.extraEngines + 1

end Sys2Proof
end

