-- ==== Sys2Proof/Syntax.lean ====
section
/-! DEFINITION. The commands of the block, one constructor per row of the opcode table (R63). -/

namespace Sys2Proof

/-- A legal command. The operand of PUSH is the byte itself; the operand of GET is the 8-bit index
(R64); the others have none. An illegal word (R65) is no command: see `Decoded`. -/
inductive Instr where
  | init
  | push (b : Byte)
  | finish
  | get (i : BitVec 8)
  | stat
  deriving DecidableEq, Repr

end Sys2Proof
end

