-- ==== Sys2Proof/WellFormed.lean ====
section
/-! DEFINITION. The fields of a command word (R62) and the three checks a legal word meets (R65). -/

namespace Sys2Proof

/-- The three fields of a command word: OP, RSV and IMM8 (R62). -/
structure Fields where
  op : BitVec 4
  rsv : BitVec 4
  imm8 : BitVec 8
  deriving DecidableEq, Repr

/-- Cut a command word into its fields (R62). -/
def Fields.ofWord (w : CmdWord) : Fields where
  op := w.extractLsb' 12 4
  rsv := w.extractLsb' 8 4
  imm8 := w.extractLsb' 0 8

/-- R65 item 1, denied: OP is neither 0x0 nor 0x6..0xF. -/
def Fields.opcodeKnown (f : Fields) : Bool := decide (1 ≤ f.op.toNat ∧ f.op.toNat ≤ 5)

/-- R65 item 2, denied: RSV is 0. -/
def Fields.reservedClear (f : Fields) : Bool := f.rsv == 0

/-- The opcodes of INIT, FINISH and STAT, whose operand field must be 0 (R63). -/
def Fields.takesNoOperand (f : Fields) : Bool := f.op == 1 || f.op == 3 || f.op == 5

/-- R65 item 3, denied: an opcode without operand carries IMM8 = 0. -/
def Fields.operandAllowed (f : Fields) : Bool := !f.takesNoOperand || f.imm8 == 0

/-- The fields of a legal word: none of the three conditions of R65 holds. -/
def Fields.wf (f : Fields) : Bool := f.opcodeKnown && f.reservedClear && f.operandAllowed

/-- The fields R63 gives each command. -/
def Instr.fields : Instr → Fields
  | .init => { op := 1, rsv := 0, imm8 := 0 }
  | .push b => { op := 2, rsv := 0, imm8 := b }
  | .finish => { op := 3, rsv := 0, imm8 := 0 }
  | .get i => { op := 4, rsv := 0, imm8 := i }
  | .stat => { op := 5, rsv := 0, imm8 := 0 }

/-- A command is well formed when its fields are those of a legal word. Every command is: its type
admits no operand the word cannot carry. -/
def Instr.wf (i : Instr) : Bool := i.fields.wf

end Sys2Proof
end

