-- ==== Sys2Proof/Decode.lean ====
section
/-! DEFINITION. Decoding every 16-bit word (R62 to R66), and the encoder of the legal commands (R63). -/

namespace Sys2Proof

/-- Why a word is illegal, one constructor per item of R65. -/
inductive IllegalWord where
  /-- R65 item 1: OP is 0x0 or 0x6..0xF. -/
  | reservedOpcode
  /-- R65 item 2: RSV is not 0. -/
  | reservedBitsSet
  /-- R65 item 3: OP is INIT, FINISH or STAT and IMM8 is not 0. -/
  | operandNotZero
  deriving DecidableEq, Repr

/-- R66: every word decodes to exactly one of the five commands or ILLEGAL. -/
inductive Decoded where
  | instr (i : Instr)
  | illegal (why : IllegalWord)
  deriving DecidableEq, Repr

/-- A command whose operand field must be 0 (R64, R65 item 3). -/
def noOperand (imm8 : BitVec 8) (i : Instr) : Decoded :=
  if imm8 = 0 then .instr i else .illegal .operandNotZero

/-- The opcode map of R63, for a word whose RSV field is 0. -/
def decodeOpcode (op : BitVec 4) (imm8 : BitVec 8) : Decoded :=
  match op with
  | 0x1 => noOperand imm8 .init
  | 0x2 => .instr (.push imm8)
  | 0x3 => noOperand imm8 .finish
  | 0x4 => .instr (.get imm8)
  | 0x5 => noOperand imm8 .stat
  | _ => .illegal .reservedOpcode

/-- `Decode(w)` of R80: total on all words (R66). -/
def decode (w : CmdWord) : Decoded :=
  if w.extractLsb' 8 4 = 0 then decodeOpcode (w.extractLsb' 12 4) (w.extractLsb' 0 8)
  else .illegal .reservedBitsSet

/-- The word of a command, from the encodings R82, R83, R84, R130 and R131 give. -/
def encode : Instr → CmdWord
  | .init => 0x1000
  | .push b => 0x2000 ||| b.setWidth 16
  | .finish => 0x3000
  | .get i => 0x4000 ||| i.setWidth 16
  | .stat => 0x5000

/-- The instruction of a row of the opcode table given as a number of `nbits` bits. A command is one
16-bit word (R62), so a number of more bits is no command. -/
def decodeTableWord (nbits w : Nat) : Option Instr :=
  if nbits ≤ 16 then
    match decode (BitVec.ofNat 16 (w % 2 ^ nbits)) with
    | .instr i => some i
    | .illegal _ => none
  else none

end Sys2Proof
end

