-- ==== Sys2Proof/Machine/Compress.lean ====
section
/-! DEFINITION. The compression engine: helpers, schedule, iteration, compression (R100 to R114). -/

namespace Sys2Proof.Machine

/-- Right rotation by n, for 1 ≤ n ≤ 31 (R106). -/
def rotr (x : Word) (n : Nat) : Word := (x >>> n) ||| (x <<< (32 - n))

/-- Logical right shift (R107). -/
def shr (x : Word) (n : Nat) : Word := x >>> n

/-- R108. -/
def ch (x y z : Word) : Word := (x &&& y) ^^^ (~~~x &&& z)

/-- R109. -/
def maj (x y z : Word) : Word := (x &&& y) ^^^ (x &&& z) ^^^ (y &&& z)

/-- R110. -/
def bsig0 (x : Word) : Word := rotr x 2 ^^^ rotr x 13 ^^^ rotr x 22

/-- R111. -/
def bsig1 (x : Word) : Word := rotr x 6 ^^^ rotr x 11 ^^^ rotr x 25

/-- R112: the third term is a shift. -/
def ssig0 (x : Word) : Word := rotr x 7 ^^^ rotr x 18 ^^^ shr x 3

/-- R113: the third term is a shift. -/
def ssig1 (x : Word) : Word := rotr x 17 ^^^ rotr x 19 ^^^ shr x 10

/-- Word j of a block, bits 511−32j down to 480−32j, for j in 0..15 (R42, R101). -/
def blockWord (blk : Block) (j : Nat) : Word := blk.extractLsb' (480 - 32 * j) 32

/-- The first 16 schedule words (R101). -/
def scheduleHead (blk : Block) : List Word := (List.range 16).map (blockWord blk)

/-- W[t] from the words before it, for t in 16..63 (R102). -/
def scheduleWord (w : List Word) (t : Nat) : Word :=
  ssig1 (w.getD (t - 2) 0) + w.getD (t - 7) 0 + ssig0 (w.getD (t - 15) 0) + w.getD (t - 16) 0

/-- Append the next n schedule words in increasing order of t (R102). -/
def extendSchedule : Nat → List Word → List Word
  | 0, w => w
  | n + 1, w => extendSchedule n (w ++ [scheduleWord w w.length])

/-- The message schedule W[0..63] of a block (R101, R102). -/
def schedule (blk : Block) : List Word := extendSchedule 48 (scheduleHead blk)

/-- T1 of an iteration, from the round constant and the schedule word (R104). -/
def tempOne (k w : Word) (v : Words8) : Word := v.w7 + bsig1 v.w4 + ch v.w4 v.w5 v.w6 + k + w

/-- T2 of an iteration (R104). -/
def tempTwo (v : Words8) : Word := bsig0 v.w0 + maj v.w0 v.w1 v.w2

/-- The parallel assignment of an iteration, given its K[t] and W[t] (R104). -/
def mix (k w : Word) (v : Words8) : Words8 where
  w0 := tempOne k w v + tempTwo v
  w1 := v.w0
  w2 := v.w1
  w3 := v.w2
  w4 := v.w3 + tempOne k w v
  w5 := v.w4
  w6 := v.w5
  w7 := v.w6

/-- Iteration t over the schedule w (R104). -/
def iterate (w : List Word) (v : Words8) (t : Nat) : Words8 := mix (roundConstant t) (w.getD t 0) v

/-- Word-by-word addition modulo 2^32 (R105). -/
def addWords (x y : Words8) : Words8 where
  w0 := x.w0 + y.w0
  w1 := x.w1 + y.w1
  w2 := x.w2 + y.w2
  w3 := x.w3 + y.w3
  w4 := x.w4 + y.w4
  w5 := x.w5 + y.w5
  w6 := x.w6 + y.w6
  w7 := x.w7 + y.w7

/-- `Compress(Hin, B)` (R100): the working variables start from Hin (R103) and run iterations 0..63. -/
def compress (hin : Words8) (blk : Block) : Words8 :=
  addWords hin ((List.range 64).foldl (iterate (schedule blk)) hin)

end Sys2Proof.Machine
end

