-- ==== Sys2Proof/Machine/State.lean ====
section
/-! DEFINITION. The state of one engine and its port (R20, R60, R61), and the state after reset (R180). -/

namespace Sys2Proof.Machine

/-- PHASE (R27). The value 3 is never held, so it has no constructor (93_implementation_defined.md U6). -/
inductive Phase where
  | accumulating
  | finalized
  | faulted
  deriving DecidableEq, Repr

/-- The causes of the architectural faults (R150). Taking one is a NEXT state, never a stop. -/
inductive FaultCause where
  /-- Code 1: the word is illegal. -/
  | illegalCommand
  /-- Code 2: PUSH or FINISH in FINALIZED. -/
  | useAfterFinish
  /-- Code 3: GET in ACCUMULATING. -/
  | notFinalized
  /-- Code 4: PUSH with LEN at or above the longest message. -/
  | lengthOverflow
  deriving DecidableEq, Repr

/-- The kinds of response (R67). -/
inductive RspKind where
  | ack
  | word
  | absent
  | fault
  deriving DecidableEq, Repr

/-- One response: `rsp_kind` and `rsp_data` (R67). -/
structure Response where
  kind : RspKind
  data : Word
  deriving DecidableEq, Repr

/-- What the host drives on the port at one rising edge of `clk` (R60). -/
structure Edge where
  rst : Bool
  cmdValid : Bool
  cmdWord : CmdWord
  rspReady : Bool
  deriving DecidableEq, Repr

/-- The state: the five elements of R20, the port's own state, and the model's bookkeeping. -/
structure State where
  /-- H[0..7], the accumulator (R21). -/
  h : Words8
  /-- BUF[0..63], the block buffer; a slot without a cell holds ⊥ (R24). -/
  buf : List Host.Cell
  /-- LEN, the byte counter (R26). -/
  len : BitVec 64
  /-- PHASE (R27). -/
  phase : Phase
  /-- CAUSE (R28). -/
  cause : BitVec 4
  /-- The response of the outstanding command, from acceptance until delivery (R61 items 2 to 4). -/
  rsp : Option Response
  /-- Edges until the outstanding response is offered (R61 item 5); set from a free value. -/
  wait : Nat
  /-- The word offered and not yet accepted, which the host must hold steady (R189). -/
  offer : Option CmdWord
  /-- The model's own: how many commands have been accepted; the free latency is applied to it. -/
  accepted : Nat
  /-- The model's own: which latencies this engine has; the free latency is applied to it, no command
  reads it, and it is no identifier register (R162). -/
  seed : Nat
  /-- The model's own: what the host will drive at the coming edges, oldest first (R187, R189). -/
  inputs : List Edge
  /-- The model's own: the responses delivered in this run, oldest first (R187). -/
  delivered : List Response
  deriving DecidableEq, Repr

/-- Why a step stops with a fault. -/
inductive Fault where
  /-- `UNWRITTEN_READ` (R43): a compression met a buffer slot that holds ⊥. Raised by PUSH and FINISH
  through `pushByte`; no reachable state does it. Safe. -/
  | unwrittenRead
  deriving DecidableEq, Repr

/-- Why a step is refused. -/
inductive Refusal where
  /-- An instruction without a meaning in this model; raised by `exec` alone. Safe. No arm uses it. -/
  | notModelled (mnemonic : String)
  /-- The host withdrew or changed an offered word before it was accepted (R189;
  93_implementation_defined.md U15: "the model has no step for it"). Raised by `clockEdge`. Safe. -/
  | handshakeBroken
  deriving DecidableEq, Repr

/-- The state right after reset (R180), with nothing outstanding on the port (R181) and no input yet. -/
def State.reset : State where
  h := ivRom
  buf := []
  len := 0
  phase := .accumulating
  cause := 0
  rsp := none
  wait := 0
  offer := none
  accepted := 0
  seed := 0
  inputs := []
  delivered := []

end Sys2Proof.Machine
end

