-- ==== Sys2Proof/Machine/Flags.lean ====
section
/-! DEFINITION. PHASE, CAUSE and response codes and the status word (R27, R67, R131, R150). The block has
no condition flags (R32): PHASE and CAUSE are its only status. -/

namespace Sys2Proof.Machine

/-- The 2-bit value of PHASE (R27). -/
def phaseCode : Phase → BitVec 2
  | .accumulating => 0
  | .finalized => 1
  | .faulted => 2

/-- The 4-bit code of a fault cause (R150). -/
def causeCode : FaultCause → BitVec 4
  | .illegalCommand => 1
  | .useAfterFinish => 2
  | .notFinalized => 3
  | .lengthOverflow => 4

/-- The 2-bit value on `rsp_kind` (R67). -/
def rspKindCode : RspKind → BitVec 2
  | .ack => 0
  | .word => 1
  | .absent => 2
  | .fault => 3

/-- `zext_32(CAUSE)`, the data of a FAULT response (R67). -/
def causeData (cause : BitVec 4) : Word := cause.setWidth 32

/-- The status word `zext_32(CAUSE ++ 0b00 ++ PHASE)` (R131). -/
def statusWord (cause : BitVec 4) (phase : Phase) : Word :=
  (cause ++ (0 : BitVec 2) ++ phaseCode phase).setWidth 32

end Sys2Proof.Machine
end

