-- ==== Sys2Proof/Machine/Memory.lean ====
section
/-! DEFINITION. The block buffer BUF as a canonical list of (slot, byte) cells (R11, R24, R40). -/

namespace Sys2Proof.Machine

/-- The canonical form: slots strictly rising, every slot in 0..63. A slot with no cell holds ⊥, so no
cell can equal what an unlisted slot reads as. -/
abbrev Memory.wf (m : List Host.Cell) : Prop :=
  m.Pairwise (fun c d => c.1 < d.1) ∧ ∀ c ∈ m, c.1 < 64

/-- What slot i holds: a byte, or ⊥ as `none` (R24). -/
def slotRead : List Host.Cell → Nat → Option Byte
  | [], _ => none
  | (a, b) :: m, i => if a = i then some b else slotRead m i

/-- Put byte b into slot i, keeping the slots in order (`MemWrite(i, 1, b)` of R11). -/
def slotWrite : List Host.Cell → Nat → Byte → List Host.Cell
  | [], i, b => [(i, b)]
  | (a, c) :: m, i, b =>
    if i < a then (i, b) :: (a, c) :: m
    else if i = a then (i, b) :: m
    else (a, c) :: slotWrite m i b

/-- The bytes of the n slots from i on, or `none` if one of them holds ⊥. -/
def slotsFrom (m : List Host.Cell) : Nat → Nat → Option (List Byte)
  | _, 0 => some []
  | i, n + 1 =>
    match slotRead m i, slotsFrom m (i + 1) n with
    | some b, some bs => some (b :: bs)
    | _, _ => none

/-- The cells of bytes that stand in consecutive slots from i on. -/
def cellsFrom : Nat → List Byte → List Host.Cell
  | _, [] => []
  | i, b :: bs => (i, b) :: cellsFrom (i + 1) bs

/-- `b0 ++ b1 ++ …` with b0 in the most significant bits (R11), as a block. -/
def joinBytes (bs : List Byte) : Block :=
  bs.foldl (fun acc b => (acc <<< 8) ||| b.setWidth 512) 0

/-- `MemRead(0, 64)` of R11; `none` when a slot holds ⊥ (R43). -/
def readBlock (m : List Host.Cell) : Option Block := (slotsFrom m 0 64).map joinBytes

end Sys2Proof.Machine
end

