-- ==== Sys2Proof/Machine/Operands.lean ====
section
/-! DEFINITION. The operand forms (R64): the byte of PUSH, the index of GET, the element an index selects. -/

namespace Sys2Proof.Machine

/-- The operand byte of PUSH, used unchanged (R64). -/
def byteOperand (imm8 : BitVec 8) : Byte := imm8

/-- The index of GET, `zext_32` of the operand (R64). -/
def indexOperand (imm8 : BitVec 8) : Word := imm8.setWidth 32

/-- H[i] for i < 8; `none` where no such element exists (R130). -/
def wordAt (x : Words8) (i : Word) : Option Word :=
  match i.toNat with
  | 0 => some x.w0
  | 1 => some x.w1
  | 2 => some x.w2
  | 3 => some x.w3
  | 4 => some x.w4
  | 5 => some x.w5
  | 6 => some x.w6
  | 7 => some x.w7
  | _ => none

/-- The slot the next byte is written to, LEN[5:0] (R26, R41). -/
def writeOffset (s : State) : BitVec 6 := s.len.extractLsb' 0 6

/-- `BE64bytes(v)`: the eight bytes of v, most significant first (R14). -/
def be64Bytes (v : BitVec 64) : List Byte :=
  (List.range 8).map fun k => v.extractLsb' (56 - 8 * k) 8

/-- `BE32(b0, b1, b2, b3)`, b0 most significant (R14). -/
def be32 (b0 b1 b2 b3 : Byte) : Word := b0 ++ b1 ++ b2 ++ b3

end Sys2Proof.Machine
end

