-- ==== Sys2Proof/Machine/Ops.lean ====
section
/-! DEFINITION. The shared operations: responding, taking a fault, reset, the push path, the padding. -/

namespace Sys2Proof.Machine

/-- Go on with k from a next state; a fault or a refusal stays. -/
def andThen (o : Host.Outcome State Fault Refusal) (k : State → Host.Outcome State Fault Refusal) :
    Host.Outcome State Fault Refusal :=
  match o with
  | .next s => k s
  | .fault r => .fault r
  | .refused r => .refused r

/-- `respond(kind, data)` of R12: the one response of the current command. -/
def respond (kind : RspKind) (data : Word) (s : State) : State := { s with rsp := some ⟨kind, data⟩ }

/-- TAKING A FAULT, `raise Fault(c)` of R151: PHASE and CAUSE change and the response is FAULT(c). There
is no handler, no saved program counter and no return from a fault (R151, R153): reset is the only way
out. -/
def raiseFault (c : FaultCause) (s : State) : State :=
  respond .fault (causeData (causeCode c)) { s with phase := .faulted, cause := causeCode c }

/-- The first check of R80 and R154: in FAULTED the answer is FAULT(CAUSE) and nothing changes (R152). -/
def unlessFaulted (s : State) (k : State → Host.Outcome State Fault Refusal) :
    Host.Outcome State Fault Refusal :=
  if s.phase = .faulted then .next (respond .fault (causeData s.cause) s) else k s

/-- What INIT writes and reset too: a new hashing context (R82, R180). -/
def newContext (s : State) : State :=
  { s with h := ivRom, buf := [], len := 0, phase := .accumulating }

/-- The hardware reset, the only way out of FAULTED (R153, R180): the whole engine state, and the
outstanding command is abandoned without a response (R181). The host's coming inputs and the counter
behind the free latency are not the engine's. -/
def hardwareReset (s : State) : State :=
  { newContext s with cause := 0, rsp := none, wait := 0, offer := none, delivered := [] }

/-- `MemWrite(i, 1, b)` on BUF (R11). -/
def memWrite (i : Nat) (b : Byte) (s : State) : State := { s with buf := slotWrite s.buf i b }

/-- The end of a block: compress the 64 buffered bytes into H and clear BUF (R81, R25). A ⊥ slot is the
model fault `UNWRITTEN_READ` (R43). -/
def consumeBlock (s : State) : Host.Outcome State Fault Refusal :=
  match readBlock s.buf with
  | some blk => .next { s with h := compress s.h blk, buf := [] }
  | none => .fault .unwrittenRead

/-- The first two lines of `PushByte(b)`: the byte goes to slot LEN[5:0] and LEN counts it (R81). -/
def storeByte (b : Byte) (s : State) : State :=
  { memWrite (writeOffset s).toNat b s with len := s.len + 1 }

/-- `PushByte(b)` of R81, the single path by which a byte enters the block. -/
def pushByte (b : Byte) (s : State) : Host.Outcome State Fault Refusal :=
  if writeOffset (storeByte b s) = 0 then consumeBlock (storeByte b s) else .next (storeByte b s)

/-- Push the bytes one at a time, in order (R84 step 4). -/
def pushBytes : List Byte → State → Host.Outcome State Fault Refusal
  | [], s => .next s
  | b :: bs, s => andThen (pushByte b s) (pushBytes bs)

/-- The loop `while LEN[5:0] != 56: PushByte(0x00)` of R84 step 3, with fuel. LEN[5:0] rises by one each
pass, so 63 passes always suffice (R85); Laws/Padding.lean proves that the loop ends at 56. -/
def padZeros : Nat → State → Host.Outcome State Fault Refusal
  | 0, s => .next s
  | fuel + 1, s => if writeOffset s = 56 then .next s else andThen (pushByte 0x00 s) (padZeros fuel)

/-- `trunc_64(LEN * 8)` of R84 step 1. -/
def bitLength (len : BitVec 64) : BitVec 64 := len <<< 3

/-- The padding controller: steps 1 to 5 of R84. The bit length is latched before any padding byte. -/
def padMessage (s : State) : Host.Outcome State Fault Refusal :=
  andThen (pushByte 0x80 s) fun s1 =>
    andThen (padZeros 63 s1) (pushBytes (be64Bytes (bitLength s.len)))

/-- What an illegal word does: fault 1 outside FAULTED, the FAULTED answer inside (R65, R80). -/
def rejectWord (s : State) : Host.Outcome State Fault Refusal :=
  unlessFaulted s fun s => .next (raiseFault .illegalCommand s)

end Sys2Proof.Machine
end

