-- ==== Sys2Proof/Machine/Hasher.lean ====
section
/-! DEFINITION. The hasher commands INIT, PUSH and FINISH (R82, R83, R84). -/

namespace Sys2Proof.Machine

/-- INIT (R82): start a new hashing context. -/
def execInit (s : State) : Host.Outcome State Fault Refusal :=
  unlessFaulted s fun s => .next (respond .ack 0 (newContext s))

/-- PUSH b (R83): append one byte to the message. The phase check comes before the length check (R154). -/
def execPush (b : BitVec 8) (s : State) : Host.Outcome State Fault Refusal :=
  unlessFaulted s fun s =>
    if s.phase = .finalized then .next (raiseFault .useAfterFinish s)
    else if maxMsgBytes ≤ s.len then .next (raiseFault .lengthOverflow s)
    else andThen (pushByte (byteOperand b) s) fun t => .next (respond .ack 0 t)

/-- FINISH (R84): pad the message, run the final compressions and make the digest. -/
def execFinish (s : State) : Host.Outcome State Fault Refusal :=
  unlessFaulted s fun s =>
    if s.phase = .finalized then .next (raiseFault .useAfterFinish s)
    else andThen (padMessage s) fun t => .next (respond .ack 0 { t with phase := .finalized })

end Sys2Proof.Machine
end

