-- ==== Sys2Proof/Machine/Readout.lean ====
section
/-! DEFINITION. Digest readout and status: GET and STAT (R130, R131). -/

namespace Sys2Proof.Machine

/-- GET i (R130): read one digest word. The phase check comes before the index check. -/
def execGet (i : BitVec 8) (s : State) : Host.Outcome State Fault Refusal :=
  unlessFaulted s fun s =>
    if s.phase = .accumulating then .next (raiseFault .notFinalized s)
    else
      match wordAt s.h (indexOperand i) with
      | some w => .next (respond .word w s)
      | none => .next (respond .absent 0 s)

/-- STAT (R131): read the status word, in every PHASE, FAULTED too (R152). -/
def execStat (s : State) : Host.Outcome State Fault Refusal :=
  .next (respond .word (statusWord s.cause s.phase) s)

end Sys2Proof.Machine
end

