-- ==== Sys2Proof/Machine/Dispatch.lean ====
section
/-! DEFINITION. One arm per command (R80). -/

namespace Sys2Proof.Machine

/-- The `case cmd` of R80. The FAULTED check that R80 puts before it is in each meaning. -/
def exec (i : Instr) (s : State) : Host.Outcome State Fault Refusal :=
  match i with
  | .init => Sys2Proof.Machine.execInit s
  | .push b => Sys2Proof.Machine.execPush b s
  | .finish => Sys2Proof.Machine.execFinish s
  | .get j => Sys2Proof.Machine.execGet j s
  | .stat => Sys2Proof.Machine.execStat s

end Sys2Proof.Machine
end

