-- ==== Sys2Proof/Machine/Port.lean ====
section
/-! DEFINITION. The command port (R60, R61, R181, R189): signals, one clock edge, one transaction. -/

namespace Sys2Proof.Machine

/-- `Step(s, w)` of R80: the effect of one accepted word, its response left in `rsp`. -/
def runWord (w : CmdWord) (s : State) : Host.Outcome State Fault Refusal :=
  match decode w with
  | .instr i => exec i s
  | .illegal _ => rejectWord s

/-- `cmd_ready`: low while a command is outstanding (R61 item 2) and while `rst` is high (R181). When it is
high the spec does not say: the model raises it at every other edge, so a word offered to a free port is
accepted at the first edge after a delivery or a reset (DESIGN CHOICE, log entry 14). -/
def cmdReady (s : State) (e : Edge) : Bool := s.rsp.isNone && !e.rst

/-- `rsp_valid`: high once the outstanding response is ready, at the earliest one edge after the acceptance,
and from then until the delivery (DESIGN CHOICE, log entry 14); low while `rst` is high (R181). -/
def rspValid (s : State) (e : Edge) : Bool := s.rsp.isSome && s.wait == 0 && !e.rst

/-- `rsp_kind` (R60, R67) where `rsp_valid` is high. What it carries while `rsp_valid` is low the spec does
not say, and the model gives no value there (DESIGN CHOICE, log entry 12). -/
def rspKindSignal (s : State) (e : Edge) : Option (BitVec 2) :=
  if rspValid s e then s.rsp.map fun r => rspKindCode r.kind else none

/-- `rsp_data` (R60, R67) where `rsp_valid` is high; no value while it is low (DESIGN CHOICE, log
entry 12). -/
def rspDataSignal (s : State) (e : Edge) : Option Word :=
  if rspValid s e then s.rsp.map fun r => r.data else none

/-- R61 item 1: a command is accepted where `cmd_valid`, `cmd_ready` and not `rst` all hold. -/
def acceptsAt (s : State) (e : Edge) : Bool := e.cmdValid && cmdReady s e

/-- R61 item 2: a response is delivered where `rsp_valid` and `rsp_ready` both hold. -/
def deliversAt (s : State) (e : Edge) : Bool := e.rspReady && rspValid s e

/-- The host does not hold an offered word steady: it withdraws or changes it (R189, U15). -/
def breaksHandshake (s : State) (e : Edge) : Bool :=
  match s.offer with
  | some w => !(e.cmdValid && e.cmdWord == w)
  | none => false

/-- The latency of the word w accepted in state s: the free value at that command and engine state (R61
item 5, R186; the form is a DESIGN CHOICE, log entry 3). -/
def latencyOf (w : CmdWord) (s : State) : Nat :=
  Config.latency s.seed s.accepted w s.h s.buf s.len (phaseCode s.phase) s.cause

/-- The port's bookkeeping when the word w is accepted: nothing is offered any more, and the edges until
its response come from the free latency (R61). -/
def acceptCommand (w : CmdWord) (s : State) : State :=
  { s with offer := none, wait := latencyOf w s, accepted := s.accepted + 1 }

/-- The outstanding response reaches the host: the port is free again (R61 item 2). -/
def deliver (s : State) : State :=
  { s with rsp := none, delivered := s.delivered ++ s.rsp.toList }

/-- The port after an edge at which nothing is accepted: an outstanding response comes one edge nearer, and
a word offered in vain is remembered (R61, R189). -/
def passEdge (e : Edge) (s : State) : State :=
  { s with wait := s.wait - 1, offer := if e.cmdValid then some e.cmdWord else none }

/-- An edge at which no command is accepted: a response may be delivered at it (R61 item 2). -/
def holdEdge (e : Edge) (s : State) : State :=
  if deliversAt s e then deliver (passEdge e s) else passEdge e s

/-- One rising edge of `clk` (R60): reset wins (R158), then the handshake (R61). -/
def clockEdge (e : Edge) (s : State) : Host.Outcome State Fault Refusal :=
  if e.rst then .next (hardwareReset s)
  else if breaksHandshake s e then .refused .handshakeBroken
  else if acceptsAt s e then runWord e.cmdWord (acceptCommand e.cmdWord s)
  else .next (holdEdge e s)

/-- The edge at which the host offers w and nothing else. -/
def offerEdge (w : CmdWord) : Edge := { rst := false, cmdValid := true, cmdWord := w, rspReady := false }

/-- One atomic transaction of R187: a word is accepted and its one response delivered. -/
def transact (w : CmdWord) (s : State) : Host.Outcome State Fault Refusal :=
  andThen (runWord w s) fun t => .next (deliver t)

/-- The transactions of a list of words, in order: the fold of R53. -/
def transactAll : List CmdWord → State → Host.Outcome State Fault Refusal
  | [], s => .next s
  | w :: ws, s => andThen (transact w s) (transactAll ws)

end Sys2Proof.Machine
end

