-- ==== Sys2Proof/Machine/Step.lean ====
section
/-! DEFINITION. One step of the machine: the next clock edge the host drives. -/

namespace Sys2Proof.Machine

/-- One step. Where the host drives no further edge the engine is idle and keeps its state (R157, R164). -/
def step (s : State) : Host.Outcome State Fault Refusal :=
  match s.inputs with
  | [] => .next s
  | e :: rest => clockEdge e { s with inputs := rest }

/-- The state s with the command given as an `nbits`-bit number offered at the next edge, the port free to
accept it. -/
def State.withFetchWord (s : State) (nbits w : Nat) : State :=
  { s with
    rsp := none
    wait := 0
    offer := none
    inputs := offerEdge (BitVec.ofNat 16 (w % 2 ^ nbits)) :: s.inputs }

end Sys2Proof.Machine
end

