-- ==== Sys2Proof/Machine/Message.lean ====
section
/-! DEFINITION. The padded message and its digest as the spec writes them, independently of the engine's
byte-at-a-time path (R85, R87). -/

namespace Sys2Proof.Machine

/-- z = (55 − n mod 64) mod 64, the zero bytes of the padding of a message of n bytes (R85). -/
def paddingZeros (n : Nat) : Nat := (119 - n % 64) % 64

/-- The padding of a message of n bytes: `[0x80] ++ [0x00]*z ++ BE64bytes(8n)` (R87). -/
def padding (n : Nat) : List Byte :=
  0x80 :: (List.replicate (paddingZeros n) 0x00 ++ be64Bytes (BitVec.ofNat 64 (8 * n)))

/-- The padded message P of R87. -/
def paddedMessage (m : List Byte) : List Byte := m ++ padding m.length

/-- The whole 64-byte blocks of a byte sequence, in order (R87). -/
def blocksOf (bs : List Byte) : List Block :=
  (List.range (bs.length / blockBytes)).map fun i => joinBytes ((bs.drop (blockBytes * i)).take blockBytes)

/-- The compressions of the whole blocks of a byte sequence, starting from h (R87). -/
def foldBlocks (h : Words8) (bs : List Byte) : Words8 := (blocksOf bs).foldl compress h

/-- The digest of a message: the Merkle–Damgård fold of R87. -/
def digestOf (m : List Byte) : Words8 := foldBlocks ivRom (paddedMessage m)

/-- The bytes BUF holds, in slot order (R24). -/
def bufferedBytes (s : State) : List Byte := s.buf.map Prod.snd

/-- The words of `PUSH_ALL` (R69, R86): one PUSH per byte, in order. -/
def pushAllWords (m : List Byte) : List CmdWord := m.map fun b => encode (.push b)

/-- The words of `READ_DIGEST` (R69): GET 0 to GET 7. -/
def readDigestWords : List CmdWord := (List.range 8).map fun i => encode (.get (BitVec.ofNat 8 i))

/-- The words of `HASH` before its READ_DIGEST (R69): INIT, the pushes, FINISH. -/
def hashWords (m : List Byte) : List CmdWord :=
  encode .init :: (pushAllWords m ++ [encode .finish])

end Sys2Proof.Machine
end

