-- ==== Sys2Proof/Machine/Asm.lean ====
section
/-! DEFINITION. The assembler (R68, R69): text of one line to command words. Lexical details the spec does
not give are listed in log entry 7. -/

namespace Sys2Proof.Machine

/-- A line of assembler, operands as the numbers they spell (R68, R69). -/
inductive AsmLine where
  | blank
  | init
  | push (b : Nat)
  | finish
  | get (i : Nat)
  | stat
  | rawWord (w : Nat)
  | pushAll (bs : List Nat)
  | readDigest
  | hash (bs : List Nat)
  deriving DecidableEq, Repr

/-- A `<byte>` or `<index>` outside 0..255 is an assembly error, and so is a raw word of more than 16
bits (R68). -/
def AsmLine.wf : AsmLine → Bool
  | .push b => decide (b ≤ 255)
  | .get i => decide (i ≤ 255)
  | .rawWord w => decide (w ≤ 65535)
  | .pushAll bs => bs.all fun b => decide (b ≤ 255)
  | .hash bs => bs.all fun b => decide (b ≤ 255)
  | .blank | .init | .finish | .stat | .readDigest => true

/-- The words a well-formed line expands to (R69). -/
def expandLine : AsmLine → List CmdWord
  | .blank => []
  | .init => [encode .init]
  | .push b => [encode (.push (BitVec.ofNat 8 b))]
  | .finish => [encode .finish]
  | .get i => [encode (.get (BitVec.ofNat 8 i))]
  | .stat => [encode .stat]
  | .rawWord w => [BitVec.ofNat 16 w]
  | .pushAll bs => pushAllWords (bs.map (BitVec.ofNat 8))
  | .readDigest => readDigestWords
  | .hash bs => hashWords (bs.map (BitVec.ofNat 8)) ++ readDigestWords

/-- The words of a line, or an assembly error; an operand is never truncated (R68). -/
def assemble (l : AsmLine) : Option (List CmdWord) := if l.wf then some (expandLine l) else none

/-- A lexical token of a line (R68). -/
inductive Token where
  /-- A mnemonic, in lower case. -/
  | name (cs : List Char)
  /-- A number; `hex` where it is written with `0x`. -/
  | number (hex : Bool) (n : Nat)
  /-- A character literal, by its ASCII code. -/
  | charCode (n : Nat)
  /-- A text literal, its escapes resolved. -/
  | text (bs : List Nat)
  | comma
  deriving DecidableEq, Repr

/-- Mnemonics are case-insensitive (R68). -/
def lowerChar (c : Char) : Char := if 65 ≤ c.toNat ∧ c.toNat ≤ 90 then Char.ofNat (c.toNat + 32) else c

/-- The value of a digit, either case. -/
def digitValue (c : Char) : Option Nat :=
  if 48 ≤ c.toNat ∧ c.toNat ≤ 57 then some (c.toNat - 48)
  else if 97 ≤ (lowerChar c).toNat ∧ (lowerChar c).toNat ≤ 102 then some ((lowerChar c).toNat - 87)
  else none

/-- The number the digits spell in a base, going on from the value so far. -/
def numberValue (base : Nat) : Nat → List Char → Option Nat
  | n, [] => some n
  | n, c :: cs =>
    match digitValue c with
    | some d => if d < base then numberValue base (base * n + d) cs else none
    | none => none

/-- The characters of a mnemonic or a number. -/
def isWordChar (c : Char) : Bool :=
  let l := (lowerChar c).toNat
  (decide (97 ≤ l) && decide (l ≤ 122)) || (decide (48 ≤ l) && decide (l ≤ 57)) || c == '_' || c == '.'

/-- A number where the word begins with a digit, else a mnemonic. -/
def classifyWord : List Char → Option Token
  | '0' :: 'x' :: c :: cs => (numberValue 16 0 (c :: cs)).map (.number true)
  | c :: cs =>
    if 48 ≤ c.toNat ∧ c.toNat ≤ 57 then (numberValue 10 0 (c :: cs)).map (.number false)
    else some (.name ((c :: cs).map lowerChar))
  | [] => none

/-- The rest of a text literal after its opening quote: its bytes and what follows it (R69). -/
def lexText : List Char → Option (List Nat × List Char)
  | '"' :: cs => some ([], cs)
  | '\\' :: 'r' :: cs => (lexText cs).map fun p => (0x0d :: p.1, p.2)
  | '\\' :: 'n' :: cs => (lexText cs).map fun p => (0x0a :: p.1, p.2)
  | '\\' :: '"' :: cs => (lexText cs).map fun p => (0x22 :: p.1, p.2)
  | '\\' :: '\\' :: cs => (lexText cs).map fun p => (0x5c :: p.1, p.2)
  | '\\' :: _ => none
  | c :: cs => if c.toNat < 128 then (lexText cs).map fun p => (c.toNat :: p.1, p.2) else none
  | [] => none

/-- The tokens of a line, up to a comment; `fuel` is one more than the number of characters (R68). A blank
is needed only between two tokens made of word characters: none is needed before a character or text
literal, a comma or a comment (DESIGN CHOICE, log entry 7). -/
def lexLine : Nat → List Char → Option (List Token)
  | 0, _ => none
  | _ + 1, [] => some []
  | _ + 1, ';' :: _ => some []
  | n + 1, '\'' :: c :: '\'' :: cs =>
    if c.toNat < 128 then (lexLine n cs).map (.charCode c.toNat :: ·) else none
  | n + 1, '"' :: cs =>
    match lexText cs with
    | some (bs, rest) => (lexLine n rest).map (.text bs :: ·)
    | none => none
  | n + 1, c :: cs =>
    if c = ' ' ∨ c = '\t' ∨ c = '\r' ∨ c = '\n' then lexLine n cs
    else if c = ',' then (lexLine n cs).map (.comma :: ·)
    else if isWordChar c then
      match classifyWord (c :: cs.takeWhile isWordChar), lexLine n (cs.dropWhile isWordChar) with
      | some t, some ts => some (t :: ts)
      | _, _ => none
    else none

/-- The value of a `<byte>`: a number or a character (R68). -/
def tokenByte : Token → Option Nat
  | .number _ n => some n
  | .charCode n => some n
  | _ => none

/-- Bytes separated by commas (R69). -/
def byteList : List Token → Option (List Nat)
  | [t] => (tokenByte t).map fun b => [b]
  | t :: .comma :: ts =>
    match tokenByte t, byteList ts with
    | some b, some bs => some (b :: bs)
    | _, _ => none
  | _ => none

/-- The operands of PUSH_ALL and HASH: none, one text, or bytes (R69). -/
def bulkOperands : List Token → Option (List Nat)
  | [] => some []
  | [.text bs] => some bs
  | ts => byteList ts

/-- The line a token sequence spells (R68, R69). -/
def parseLine : List Token → Option AsmLine
  | [] => some .blank
  | .name m :: ts =>
    if m = ['i', 'n', 'i', 't'] then (if ts = [] then some .init else none)
    else if m = ['f', 'i', 'n', 'i', 's', 'h'] then (if ts = [] then some .finish else none)
    else if m = ['s', 't', 'a', 't'] then (if ts = [] then some .stat else none)
    else if m = ['r', 'e', 'a', 'd', '_', 'd', 'i', 'g', 'e', 's', 't'] then (if ts = [] then some .readDigest else none)
    else if m = ['p', 'u', 's', 'h'] then
      match ts with
      | [t] => (tokenByte t).map .push
      | _ => none
    else if m = ['g', 'e', 't'] then
      match ts with
      | [.number _ n] => some (.get n)
      | _ => none
    else if m = ['.', 'w', 'o', 'r', 'd'] then
      match ts with
      | [.number true n] => some (.rawWord n)
      | _ => none
    else if m = ['p', 'u', 's', 'h', '_', 'a', 'l', 'l'] then (bulkOperands ts).map .pushAll
    else if m = ['h', 'a', 's', 'h'] then (bulkOperands ts).map .hash
    else none
  | _ => none

/-- The command words of one line of assembler text, or an assembly error. -/
def assembleText (cs : List Char) : Option (List CmdWord) :=
  match lexLine (cs.length + 1) cs with
  | some ts =>
    match parseLine ts with
    | some l => assemble l
    | none => none
  | none => none

end Sys2Proof.Machine
end

