-- ==== Sys2Proof/Machine/HostSide.lean ====
section
/-! DEFINITION. The host's functions over the eight digest words (R64, R132, R133). They are no hardware. -/

namespace Sys2Proof.Machine

/-- Digest equality: all eight words equal, in order (R132). -/
def digestEq (d e : Words8) : Bool :=
  d.w0 == e.w0 && d.w1 == e.w1 && d.w2 == e.w2 && d.w3 == e.w3 &&
  d.w4 == e.w4 && d.w5 == e.w5 && d.w6 == e.w6 && d.w7 == e.w7

/-- A lowercase hexadecimal digit (R133). -/
def hexDigit (d : Nat) : Char := if d < 10 then Char.ofNat (48 + d) else Char.ofNat (87 + d)

/-- Exactly 8 digits, most significant first (R133). -/
def hexWord (w : Word) : List Char := (List.range 8).map fun k => hexDigit (w.extractLsb' (28 - 4 * k) 4).toNat

/-- The 64 characters of `Hex(D)` (R133). -/
def hexForm (d : Words8) : List Char :=
  hexWord d.w0 ++ hexWord d.w1 ++ hexWord d.w2 ++ hexWord d.w3 ++
  hexWord d.w4 ++ hexWord d.w5 ++ hexWord d.w6 ++ hexWord d.w7

/-- The command for a digest index the host holds. An index of 256 or more is absent, and no command is
sent for it (R64). -/
def hostGet (i : Nat) : Option Instr := if i < 256 then some (.get (BitVec.ofNat 8 i)) else none

end Sys2Proof.Machine
end

