-- ==== Sys2Proof/Machine/System.lean ====
section
/-! DEFINITION. Several engines (R54, R162): independent states that share only the constant tables. -/

namespace Sys2Proof.Machine

/-- n engines, each with its own port and state (R162). -/
abbrev Engines (n : Nat) := Vector State n

/-- Every engine of a system of `N_ENGINES` starts in the reset state (R162). The seeds differ, so that the
free latencies of two engines are unrelated (log entries 3 and 6). -/
def enginesReset : Engines Config.nEngines := Vector.ofFn fun k => { State.reset with seed := k }

/-- One step of engine k, the others standing still. Which engine moves next is the caller's free choice. -/
def stepEngine {n : Nat} (k : Fin n) (sys : Engines n) : Host.Outcome (Engines n) Fault Refusal :=
  match step (sys.get k) with
  | .next t => .next (sys.set k t)
  | .fault r => .fault r
  | .refused r => .refused r

end Sys2Proof.Machine
end

