-- ==== Sys2Proof/Safety.lean ====
section
/-! DEFINITION. Good runs (R188), the invariants of reachable states (R24, R26, R29, R67) and the use that
never faults (R88). -/

namespace Sys2Proof.Machine

/-- R188: a run is good when its final PHASE is not FAULTED. -/
def State.good (s : State) : Bool := s.phase != .faulted

/-- R188: a run has ended when the response to its last command has been delivered. -/
def State.idle (s : State) : Bool := s.rsp == none

/-- The invariants the spec gives for every reachable state of the engine (R24, R26, R29). PHASE having
only three values, R29 item 1 holds by its type. -/
structure State.Inv (s : State) : Prop where
  /-- BUF is in its canonical form. -/
  bufCanonical : Memory.wf s.buf
  /-- R29 item 2. -/
  causeClear : s.phase ≠ .faulted → s.cause = 0
  /-- R29 item 3. -/
  causeSet : s.phase = .faulted → s.cause ∈ [1, 2, 3, 4]
  /-- R29 item 4, the message length. -/
  messageFits : s.phase = .accumulating → s.len ≤ maxMsgBytes
  /-- R29 item 4 and R24: slot i holds a byte exactly when i < LEN mod 64. -/
  bufHolds : s.phase = .accumulating → ∀ i < 64, (slotRead s.buf i).isSome = decide (i < s.len.toNat % 64)
  /-- R29 item 5. -/
  digestHeld : s.phase = .finalized → s.len.toNat % 64 = 0 ∧ 64 ≤ s.len.toNat ∧ s.buf = []
  /-- R26: LEN is at most 2^61 + 64 at all times, so it never wraps. -/
  lenBounded : s.len.toNat ≤ 2 ^ 61 + 64

/-- A response the table of R67 allows. The data of a FAULT response is the code of a cause (R150). -/
def Response.wf (r : Response) : Bool :=
  match r.kind with
  | .ack => r.data == 0
  | .word => true
  | .absent => r.data == 0
  | .fault => decide (1 ≤ r.data.toNat ∧ r.data.toNat ≤ 4)

/-- Every response the port holds or has delivered is one of the four of R67. -/
def State.responsesWf (s : State) : Bool := s.rsp.toList.all Response.wf && s.delivered.all Response.wf

/-- The host holds an offered word steady at the next edge, or resets (R189). -/
def State.hostSteady (s : State) : Prop :=
  ∀ e ∈ s.inputs.head?, e.rst = true ∨ breaksHandshake s e = false

/-- The command sequences of R88, walked with what the engine has been sent since reset or INIT: whether
FINISH was sent, and how many bytes were pushed. THE MODEL'S READING of R88 (DEDUCED, log entry 13): the
byte limit of item 2 is per message, and no PUSH is sent between a FINISH and the next INIT, which R88's
five items do not list but R83 makes a fault. -/
def conforms : Bool → Nat → List Instr → Bool
  | _, _, [] => true
  | _, _, .init :: is => conforms false 0 is
  | done, n, .push _ :: is => !done && decide (n < 2 ^ 61 - 1) && conforms false (n + 1) is
  | done, n, .finish :: is => !done && conforms true n is
  | done, n, .get _ :: is => done && conforms done n is
  | done, n, .stat :: is => conforms done n is

end Sys2Proof.Machine
end

