-- ==== Sys2Proof/Certificates/Slice0/Obligations.lean ====
section
/-! DEFINITION. The statements for the provers. Each docstring names the rule of spec/ it rests on. -/

open Sys2Proof Sys2Proof.Machine

/-! ## Encoding (30_encoding.md) -/

/-- R63, R65: words written out from the encoding table decode to what they stand for. -/
def Obligations.WrittenWordsDecode : Prop :=
  decode 0x1000 = .instr .init ∧ decode 0x2061 = .instr (.push 0x61) ∧ decode 0x3000 = .instr .finish ∧
  decode 0x4007 = .instr (.get 7) ∧ decode 0x5000 = .instr .stat ∧
  decode 0x0000 = .illegal .reservedOpcode ∧ decode 0x6000 = .illegal .reservedOpcode ∧
  decode 0x2100 = .illegal .reservedBitsSet ∧ decode 0x1001 = .illegal .operandNotZero

/-- R63: a word decodes to a command exactly when it meets the command's match and mask, and is illegal
exactly when it meets none of the five. -/
def Obligations.DecodeFollowsMatchAndMask : Prop :=
  ∀ w : CmdWord,
    (decode w = .instr .init ↔ w &&& 0xFFFF = 0x1000) ∧
    (decode w = .instr (.push (w.extractLsb' 0 8)) ↔ w &&& 0xFF00 = 0x2000) ∧
    (decode w = .instr .finish ↔ w &&& 0xFFFF = 0x3000) ∧
    (decode w = .instr (.get (w.extractLsb' 0 8)) ↔ w &&& 0xFF00 = 0x4000) ∧
    (decode w = .instr .stat ↔ w &&& 0xFFFF = 0x5000) ∧
    ((∃ why, decode w = .illegal why) ↔
      w &&& 0xFFFF ≠ 0x1000 ∧ w &&& 0xFF00 ≠ 0x2000 ∧ w &&& 0xFFFF ≠ 0x3000 ∧ w &&& 0xFF00 ≠ 0x4000 ∧
      w &&& 0xFFFF ≠ 0x5000)

/-- R62 to R66: decode and encode agree both ways, for every command and every operand. -/
def Obligations.DecodeEncodeAgree : Prop :=
  (∀ i : Instr, decode (encode i) = .instr i) ∧
  (∀ (w : CmdWord) (i : Instr), decode w = .instr i → encode i = w)

/-- R66: 515 words are legal and 65,021 are not. -/
def Obligations.LegalWordCount : Prop :=
  ((List.range 65536).countP fun n =>
    match decode (BitVec.ofNat 16 n) with
    | .instr _ => true
    | .illegal _ => false) = 515 ∧
  ((List.range 65536).countP fun n =>
    match decode (BitVec.ofNat 16 n) with
    | .instr _ => false
    | .illegal _ => true) = 65021

/-- R65: exactly the words that meet one of its three conditions are illegal; one causes fault 1 outside
FAULTED and gets the FAULTED response inside. -/
def Obligations.IllegalWordsFault : Prop :=
  ∀ (w : CmdWord) (s : State),
    ((∃ why, decode w = .illegal why) ↔
      (w.extractLsb' 12 4 = 0 ∨ 6 ≤ (w.extractLsb' 12 4).toNat) ∨ w.extractLsb' 8 4 ≠ 0 ∨
      (w.extractLsb' 12 4 ∈ [(1 : BitVec 4), 3, 5] ∧ w.extractLsb' 0 8 ≠ 0)) ∧
    ((∃ why, decode w = .illegal why) →
      runWord w s = .next (if s.phase = .faulted
        then { s with rsp := some ⟨.fault, s.cause.setWidth 32⟩ }
        else { s with phase := .faulted, cause := 1, rsp := some ⟨.fault, 1⟩ }))

/-! ## The port (30_encoding.md, 70_reset_and_hazards.md) -/

/-- R61 item 1, R80: where the host offers a word and the port is free (and so, the model's choice, log
entry 14, `cmd_ready` is high), the step runs the decoded command,
or rejects the illegal word, on the state whose port has accepted it. Around `exec` the step takes the
edge off the inputs, clears the offer, counts the command and sets the wait from the free latency (the
model's form, log entry 3; the statement holds for every latency). -/
def Obligations.StepRunsDecodedCommand : Prop :=
  ∀ (s : State) (w : CmdWord) (ready : Bool) (rest : List Edge),
    s.rsp = none → (s.offer = none ∨ s.offer = some w) →
    s.inputs = { rst := false, cmdValid := true, cmdWord := w, rspReady := ready } :: rest →
    let t := { s with inputs := rest, offer := none, wait := latencyOf w s, accepted := s.accepted + 1 }
    (∀ i, decode w = .instr i → step s = exec i t) ∧
    (∀ why, decode w = .illegal why → step s = rejectWord t)

/-- R157, R164: without an edge, or at an edge where nothing is offered, outstanding or reset, the engine
is idle and keeps all of its state. -/
def Obligations.IdleEngineKeepsState : Prop :=
  ∀ s : State,
    (s.inputs = [] → step s = .next s) ∧
    (∀ e rest, s.inputs = e :: rest → e.rst = false → e.cmdValid = false → s.rsp = none → s.offer = none →
      ∃ t, step s = .next t ∧ t.h = s.h ∧ t.buf = s.buf ∧ t.len = s.len ∧ t.phase = s.phase ∧
        t.cause = s.cause ∧ t.rsp = none ∧ t.delivered = s.delivered ∧ t.accepted = s.accepted ∧
        t.seed = s.seed ∧ t.inputs = rest)

/-- R180: an edge with `rst` high takes the engine, in any state, to the reset state. The port accepts no
command and offers no response at that edge, and the outstanding command is abandoned (R181). -/
def Obligations.ResetTakesResetState : Prop :=
  ∀ (s : State) (e : Edge) (rest : List Edge), s.inputs = e :: rest → e.rst = true →
    cmdReady s e = false ∧ rspValid s e = false ∧
    ∃ t, step s = .next t ∧
      t.h = ⟨0x6a09e667, 0xbb67ae85, 0x3c6ef372, 0xa54ff53a, 0x510e527f, 0x9b05688c, 0x1f83d9ab, 0x5be0cd19⟩ ∧
      (∀ i, slotRead t.buf i = none) ∧ t.len = 0 ∧ t.phase = .accumulating ∧ t.cause = 0 ∧
      t.rsp = none ∧ t.inputs = rest

/-- R61 items 2 to 4: while a response is outstanding no command is accepted and the engine keeps its
state; the response is delivered exactly where `rsp_valid` and `rsp_ready` both hold, and is held
otherwise (that it stays offered is the model's choice, log entry 14). -/
def Obligations.OutstandingResponseHoldsPort : Prop :=
  ∀ (s : State) (e : Edge) (rest : List Edge) (r : Response),
    s.inputs = e :: rest → s.rsp = some r → e.rst = false → breaksHandshake s e = false →
    cmdReady s e = false ∧
    ∃ t, step s = .next t ∧ t.h = s.h ∧ t.buf = s.buf ∧ t.len = s.len ∧ t.phase = s.phase ∧
      t.cause = s.cause ∧ t.accepted = s.accepted ∧ t.seed = s.seed ∧ t.wait = s.wait - 1 ∧
      (if s.wait = 0 ∧ e.rspReady = true
        then t.rsp = none ∧ t.delivered = s.delivered ++ [r]
        else t.rsp = some r ∧ t.delivered = s.delivered)

/-- R189 and 93_implementation_defined.md U15: the model has no step exactly for a host that withdraws or
changes an offered word without a reset (log entry 4). -/
def Obligations.BrokenHandshakeRefused : Prop :=
  ∀ (s : State) (r : Refusal),
    step s = .refused r ↔
      r = .handshakeBroken ∧ ∃ e rest w, s.inputs = e :: rest ∧ e.rst = false ∧ s.offer = some w ∧
        ¬(e.cmdValid = true ∧ e.cmdWord = w)

/-- R61 item 3, R80: an accepted word gets exactly one response, and the rest of the port is untouched by
the command. -/
def Obligations.OneResponsePerCommand : Prop :=
  ∀ (w : CmdWord) (s t : State), runWord w s = .next t →
    (∃ r, t.rsp = some r) ∧ t.delivered = s.delivered ∧ t.inputs = s.inputs ∧ t.wait = s.wait ∧
    t.offer = s.offer ∧ t.accepted = s.accepted ∧ t.seed = s.seed

/-- R61, R187: an offered word, the edges of its latency (whatever that number is) and an edge that takes
the response together do what the one atomic transaction of R187 does. The latency is the model's free
value, `latencyOf` (log entry 3): nothing here constrains it. That a free port accepts the word at the first
edge, and that the response stays offered, is the model's choice (log entry 14). -/
def Obligations.PortRunIsTransaction : Prop :=
  ∀ (s : State) (w : CmdWord) (ready : Bool) (es : List Edge) (last : Edge) (rest : List Edge),
    s.rsp = none → (s.offer = none ∨ s.offer = some w) →
    s.inputs = { rst := false, cmdValid := true, cmdWord := w, rspReady := ready } :: (es ++ last :: rest) →
    es.length = latencyOf w s →
    (∀ e ∈ es, e.rst = false ∧ e.cmdValid = false) →
    last.rst = false → last.cmdValid = false → last.rspReady = true →
    Host.Core.run Sys2Proof.core (es.length + 2) s =
      andThen (transact w s) fun t =>
        .next { t with inputs := rest, offer := none, wait := 0, accepted := s.accepted + 1 }

/-! ## The commands (40_hasher_commands.md, 42_digest_and_status.md) -/

/-- R82: INIT outside FAULTED starts a new hashing context and answers ACK, and a second INIT leaves the
same state; in FAULTED it has no effect (R80). Its word is 0x1000, and every other word of its opcode is
illegal. From INIT until the next FINISH, whatever other words come between, every GET answers FAULT. -/
def Obligations.InitStartsNewContext : Prop :=
  ∀ s : State,
    runWord 0x1000 s = exec .init s ∧
    (∀ w : CmdWord, w &&& 0xF000 = 0x1000 → w ≠ 0x1000 → ∃ why, decode w = .illegal why) ∧
    (s.phase = .faulted → exec .init s = .next { s with rsp := some ⟨.fault, s.cause.setWidth 32⟩ }) ∧
    (s.phase ≠ .faulted → exec .init s = .next { s with
      h := ⟨0x6a09e667, 0xbb67ae85, 0x3c6ef372, 0xa54ff53a, 0x510e527f, 0x9b05688c, 0x1f83d9ab, 0x5be0cd19⟩
      buf := []
      len := 0
      phase := .accumulating
      rsp := some ⟨.ack, 0⟩ }) ∧
    (∀ t, s.phase ≠ .faulted → exec .init s = .next t → exec .init t = .next t) ∧
    (∀ (ws : List CmdWord) (t : State) (i : BitVec 8), 0x3000 ∉ ws → transactAll (0x1000 :: ws) s = .next t →
      ∃ u r, runWord (0x4000 ||| i.setWidth 16) t = .next u ∧ u.rsp = some r ∧ r.kind = .fault)

/-- R81, R83: PUSH in every PHASE. The byte goes to slot LEN mod 64 behind the bytes already buffered; the
64th byte of a block runs one compression over the buffered bytes in push order. The premise is the
invariant of R29, which StepKeepsInvariant states. -/
def Obligations.PushAppendsOneByte : Prop :=
  ∀ (s : State) (b : Byte), s.Inv →
    exec (.push b) s = .next (
      if s.phase = .faulted then { s with rsp := some ⟨.fault, s.cause.setWidth 32⟩ }
      else if s.phase = .finalized then { s with phase := .faulted, cause := 2, rsp := some ⟨.fault, 2⟩ }
      else if 2 ^ 61 - 1 ≤ s.len.toNat then { s with phase := .faulted, cause := 4, rsp := some ⟨.fault, 4⟩ }
      else if s.len.toNat % 64 = 63 then { s with
        h := compress s.h (joinBytes (bufferedBytes s ++ [b]))
        buf := []
        len := s.len + 1
        rsp := some ⟨.ack, 0⟩ }
      else { s with
        buf := slotWrite s.buf (s.len.toNat % 64) b
        len := s.len + 1
        rsp := some ⟨.ack, 0⟩ })

/-- R84, R85, R87: FINISH in ACCUMULATING compresses the blocks of the buffered bytes followed by the
padding, leaves LEN at n + 9 + z and finalizes. The premise is the invariant of R29. -/
def Obligations.FinishCompressesPaddedBlocks : Prop :=
  ∀ s : State, s.Inv → s.phase = .accumulating →
    exec .finish s = .next { s with
      h := foldBlocks s.h (bufferedBytes s ++ padding s.len.toNat)
      buf := []
      len := BitVec.ofNat 64 (s.len.toNat + 9 + paddingZeros s.len.toNat)
      phase := .finalized
      rsp := some ⟨.ack, 0⟩ }

/-- R130: GET in every PHASE and for every index; its word is 0x4000 | i. -/
def Obligations.GetReadsDigestWord : Prop :=
  ∀ (s : State) (i : BitVec 8),
    runWord (0x4000 ||| i.setWidth 16) s = exec (.get i) s ∧
    exec (.get i) s = .next (
      if s.phase = .faulted then { s with rsp := some ⟨.fault, s.cause.setWidth 32⟩ }
      else if s.phase = .accumulating then { s with phase := .faulted, cause := 3, rsp := some ⟨.fault, 3⟩ }
      else match [s.h.w0, s.h.w1, s.h.w2, s.h.w3, s.h.w4, s.h.w5, s.h.w6, s.h.w7][i.toNat]? with
        | some x => { s with rsp := some ⟨.word, x⟩ }
        | none => { s with rsp := some ⟨.absent, 0⟩ })

/-- R131: STAT answers the status word, field by field, in every PHASE. Its word is 0x5000, and every other
word of its opcode is illegal. In FAULTED it is the only word that does not get a FAULT response. -/
def Obligations.StatReadsStatusWord : Prop :=
  ∀ s : State,
    runWord 0x5000 s = exec .stat s ∧
    (∀ w : CmdWord, w &&& 0xF000 = 0x5000 → w ≠ 0x5000 → ∃ why, decode w = .illegal why) ∧
    ∃ x : Word, exec .stat s = .next { s with rsp := some ⟨.word, x⟩ } ∧
    x.extractLsb' 0 2 = (match s.phase with
      | .accumulating => 0
      | .finalized => 1
      | .faulted => 2) ∧
    x.extractLsb' 2 2 = 0 ∧ x.extractLsb' 4 4 = s.cause ∧ x.extractLsb' 8 24 = 0 ∧
    (s.phase = .faulted → ∀ w : CmdWord,
      ∃ t r, runWord w s = .next t ∧ t.rsp = some r ∧ (r.kind ≠ .fault ↔ w = 0x5000))

/-- R131 corner case: the six words STAT can return, in a state that meets the invariant of R29. -/
def Obligations.StatReturnsOneOfSixWords : Prop :=
  ∀ s t : State, s.Inv → exec .stat s = .next t →
    ∃ x ∈ [(0x00 : Word), 0x01, 0x12, 0x22, 0x32, 0x42], t.rsp = some ⟨.word, x⟩

/-! ## Frames -/

/-- R82, R84: what INIT and FINISH leave unchanged. CAUSE changes only where FINISH faults; a command that
does not answer ACK stores nothing, and every slot of BUF reads as before; one that does leaves every
slot ⊥. The port's own fields are in OneResponsePerCommand. -/
def Obligations.ContextCommandsFrame : Prop :=
  ∀ (i : Instr) (s t : State), i = .init ∨ i = .finish → exec i s = .next t →
    (t.rsp = some ⟨.ack, 0⟩ → t.cause = s.cause ∧ ∀ j, slotRead t.buf j = none) ∧
    (t.rsp ≠ some ⟨.ack, 0⟩ → t.h = s.h ∧ t.len = s.len ∧ (∀ j, slotRead t.buf j = slotRead s.buf j) ∧
      (s.phase = .faulted → t.phase = s.phase ∧ t.cause = s.cause)) ∧
    t.offer = s.offer ∧ t.wait = s.wait ∧ t.accepted = s.accepted ∧ t.seed = s.seed ∧ t.inputs = s.inputs ∧
    t.delivered = s.delivered

/-- R81, R83, R41: what PUSH leaves unchanged. It stores one byte at slot LEN[5:0], the offset `writeOffset`
computes; every other slot reads as before, unless this byte completed a block and every slot is ⊥. H
changes only with a completed block. A PUSH that does not answer ACK stores nothing. -/
def Obligations.PushFrame : Prop :=
  ∀ (b : Byte) (s t : State), exec (.push b) s = .next t →
    (t.rsp = some ⟨.ack, 0⟩ → t.phase = s.phase ∧ t.cause = s.cause ∧
      ((writeOffset s).toNat ≠ 63 →
        t.h = s.h ∧ ∀ j, j ≠ (writeOffset s).toNat → slotRead t.buf j = slotRead s.buf j) ∧
      ((writeOffset s).toNat = 63 → ∀ j, slotRead t.buf j = none)) ∧
    (t.rsp ≠ some ⟨.ack, 0⟩ → t.h = s.h ∧ t.len = s.len ∧ (∀ j, slotRead t.buf j = slotRead s.buf j) ∧
      (s.phase = .faulted → t.phase = s.phase ∧ t.cause = s.cause)) ∧
    t.offer = s.offer ∧ t.wait = s.wait ∧ t.accepted = s.accepted ∧ t.seed = s.seed ∧ t.inputs = s.inputs ∧
    t.delivered = s.delivered

/-- R50, R130, R131: GET and STAT store nothing and leave H, BUF and LEN unchanged; PHASE and CAUSE change
only where GET faults in ACCUMULATING. -/
def Obligations.ReadoutFrame : Prop :=
  ∀ (i : Instr) (s t : State), (∃ j, i = .get j) ∨ i = .stat → exec i s = .next t →
    t.h = s.h ∧ t.len = s.len ∧ (∀ j, slotRead t.buf j = slotRead s.buf j) ∧
    (i = .stat ∨ s.phase ≠ .accumulating → t.phase = s.phase ∧ t.cause = s.cause) ∧
    t.offer = s.offer ∧ t.wait = s.wait ∧ t.accepted = s.accepted ∧ t.seed = s.seed ∧ t.inputs = s.inputs ∧
    t.delivered = s.delivered

/-! ## Faults (60_exceptions.md) -/

/-- R151, R155: a faulting word changes PHASE and CAUSE and answers FAULT with the cause; H, BUF and LEN
keep exactly the values they had. -/
def Obligations.FaultsArePrecise : Prop :=
  ∀ (w : CmdWord) (s t : State), s.phase ≠ .faulted → runWord w s = .next t → t.phase = .faulted →
    ∃ c ∈ [(1 : BitVec 4), 2, 3, 4],
      t = { s with phase := .faulted, cause := c, rsp := some ⟨.fault, c.setWidth 32⟩ }

/-- R152: in FAULTED, STAT answers the status and every other word FAULT(CAUSE); no state changes, however
many words follow. -/
def Obligations.FaultedIsSticky : Prop :=
  (∀ (w : CmdWord) (s : State), s.phase = .faulted →
    runWord w s = .next { s with rsp := some (
      if w = 0x5000 then ⟨.word, (s.cause ++ (0 : BitVec 2) ++ (2 : BitVec 2)).setWidth 32⟩
      else ⟨.fault, s.cause.setWidth 32⟩) }) ∧
  (∀ (ws : List CmdWord) (s : State), s.phase = .faulted →
    ∃ t, transactAll ws s = .next t ∧ t.phase = .faulted ∧ t.cause = s.cause ∧ t.h = s.h ∧ t.buf = s.buf ∧
      t.len = s.len ∧ t.good = false)

/-- R153: a step leaves FAULTED only by the hardware reset, which sets PHASE to ACCUMULATING and CAUSE to 0,
and that always leaves it. -/
def Obligations.OnlyResetLeavesFaulted : Prop :=
  ∀ s : State, s.phase = .faulted →
    (∀ t, step s = .next t → t.phase ≠ .faulted → ∃ e rest, s.inputs = e :: rest ∧ e.rst = true) ∧
    (∀ e rest, s.inputs = e :: rest → e.rst = true →
      ∃ t, step s = .next t ∧ t.phase = .accumulating ∧ t.cause = 0)

/-- R154: the order of the checks, by the first one that applies. -/
def Obligations.FaultChecksInOrder : Prop :=
  ∀ (w : CmdWord) (s : State),
    (s.phase = .faulted → runWord w s = .next { s with rsp := some (
      if w = 0x5000 then ⟨.word, (s.cause ++ (0 : BitVec 2) ++ (2 : BitVec 2)).setWidth 32⟩
      else ⟨.fault, s.cause.setWidth 32⟩) }) ∧
    (s.phase ≠ .faulted → (∃ why, decode w = .illegal why) →
      runWord w s = .next { s with phase := .faulted, cause := 1, rsp := some ⟨.fault, 1⟩ }) ∧
    (s.phase = .finalized → ((∃ b, decode w = .instr (.push b)) ∨ decode w = .instr .finish) →
      runWord w s = .next { s with phase := .faulted, cause := 2, rsp := some ⟨.fault, 2⟩ }) ∧
    (s.phase = .accumulating → (∃ i, decode w = .instr (.get i)) →
      runWord w s = .next { s with phase := .faulted, cause := 3, rsp := some ⟨.fault, 3⟩ }) ∧
    (s.phase = .accumulating → (∃ b, decode w = .instr (.push b)) → 2 ^ 61 - 1 ≤ s.len.toNat →
      runWord w s = .next { s with phase := .faulted, cause := 4, rsp := some ⟨.fault, 4⟩ })

/-- R27, R28: PHASE changes only by INIT, FINISH and fault entry, and CAUSE only by fault entry (reset is no
command). -/
def Obligations.PhaseAndCauseWriters : Prop :=
  ∀ (w : CmdWord) (s t : State), runWord w s = .next t →
    (t.phase ≠ s.phase →
      (decode w = .instr .init ∧ t.phase = .accumulating) ∨
      (decode w = .instr .finish ∧ s.phase = .accumulating ∧ t.phase = .finalized) ∨
      (s.phase ≠ .faulted ∧ t.phase = .faulted)) ∧
    (t.cause ≠ s.cause → s.phase ≠ .faulted ∧ t.phase = .faulted)

/-- R21, R23: in FINALIZED no step changes H but the acceptance of INIT or a reset. -/
def Obligations.DigestStaysUntilInitOrReset : Prop :=
  ∀ s t : State, s.phase = .finalized → step s = .next t →
    t.h = s.h ∨ ∃ e rest, s.inputs = e :: rest ∧
      (e.rst = true ∨ (acceptsAt s e = true ∧ decode e.cmdWord = .instr .init))

/-! ## Invariants (10_state.md, 20_memory.md) -/

/-- R29, R180: the reset state meets the invariant. -/
def Obligations.ResetMeetsInvariant : Prop := State.reset.Inv ∧ State.reset.responsesWf = true

/-- R24, R26, R29: every step keeps the invariant. -/
def Obligations.StepKeepsInvariant : Prop :=
  ∀ s t : State, s.Inv → step s = .next t → t.Inv

/-- R43, R190 and 93_implementation_defined.md U9: from a state that meets the invariant, with a host that
keeps the handshake, every step answers a next state: UNWRITTEN_READ is never raised. -/
def Obligations.EveryStepAnswers : Prop :=
  ∀ s : State, s.Inv → s.hostSteady → ∃ t, step s = .next t

/-- R40, R41: every step keeps BUF in its canonical form, in every state, reachable or not. -/
def Obligations.StepKeepsBufferCanonical : Prop :=
  ∀ s t : State, Memory.wf s.buf → step s = .next t → Memory.wf t.buf

/-- R67: every response, outstanding or delivered, stays one of the four its table lists. -/
def Obligations.ResponsesStayWellFormed : Prop :=
  ∀ s t : State, s.Inv → s.responsesWf = true → step s = .next t → t.responsesWf = true

/-! ## Messages and digests (40_hasher_commands.md, 42_digest_and_status.md) -/

/-- R87: after INIT, the message in order and FINISH, H is the fold of Compress over the blocks of the
padded message, from whatever context the engine held before. -/
def Obligations.StreamedDigestIsMerkleDamgard : Prop :=
  ∀ (m : List Byte) (s : State), m.length ≤ 2 ^ 61 - 1 → s.phase ≠ .faulted →
    ∃ t, transactAll (hashWords m) s = .next t ∧ t.phase = .finalized ∧ t.h = digestOf m ∧
      t.len.toNat = m.length + 9 + paddingZeros m.length ∧ t.buf = []

/-- R24, R89: pushing n bytes from reset, or from INIT in any context, runs floor(n / 64) compressions, over
the whole blocks in push order, and BUF holds the last n mod 64 bytes in push order. -/
def Obligations.PushesFoldWholeBlocks : Prop :=
  ∀ (m : List Byte) (start : List CmdWord) (s : State), m.length ≤ 2 ^ 61 - 1 →
    (start = [] ∧ s = State.reset) ∨ (start = [0x1000] ∧ s.phase ≠ .faulted) →
    ∃ t, transactAll (start ++ pushAllWords m) s = .next t ∧ t.phase = .accumulating ∧
      (blocksOf m).length = m.length / 64 ∧ t.h = foldBlocks ivRom m ∧
      bufferedBytes t = m.drop (64 * (m.length / 64)) ∧ t.len.toNat = m.length

/-- R86: the digest depends only on the concatenation of the chunks, not on how the message was split. -/
def Obligations.ChunkingDoesNotMatter : Prop :=
  ∀ (chunks : List (List Byte)) (s : State), chunks.flatten.length ≤ 2 ^ 61 - 1 → s.phase ≠ .faulted →
    ∃ t, transactAll (encode .init :: (chunks.flatMap pushAllWords ++ [encode .finish])) s = .next t ∧
      t.h = digestOf chunks.flatten

/-- R85: the layout of the padding behind the L0 bytes that wait in the buffer: z zero bytes, the least whole
number of blocks, one or two of them, 0x80 in slot L0, and the length in the last eight bytes. -/
def Obligations.PaddingLayout : Prop :=
  ∀ (n : Nat) (waiting : List Byte), waiting.length = n % 64 →
    let p := waiting ++ padding n
    let z := paddingZeros n
    (z : Int) = (55 - (n % 64 : Nat) : Int) % 64 ∧
    p.length = n % 64 + 9 + z ∧ (n + 9 + z) % 64 = 0 ∧ (∀ k, k % 64 = 0 → n + 9 ≤ k → n + 9 + z ≤ k) ∧
    (blocksOf p).length = (if n % 64 ≤ 55 then 1 else 2) ∧
    p.length = 64 * (blocksOf p).length ∧
    p[n % 64]? = some 0x80 ∧
    (∀ k, n % 64 < k → k < p.length - 8 → p[k]? = some 0x00) ∧
    p.drop (p.length - 8) = be64Bytes (BitVec.ofNat 64 (8 * n))

/-- R134: in FINALIZED, READ_DIGEST delivers the eight words of H in order and changes nothing else. -/
def Obligations.ReadDigestDeliversWords : Prop :=
  ∀ s : State, s.phase = .finalized →
    transactAll readDigestWords s = .next { s with
      rsp := none
      delivered := s.delivered ++ [⟨.word, s.h.w0⟩, ⟨.word, s.h.w1⟩, ⟨.word, s.h.w2⟩, ⟨.word, s.h.w3⟩,
        ⟨.word, s.h.w4⟩, ⟨.word, s.h.w5⟩, ⟨.word, s.h.w6⟩, ⟨.word, s.h.w7⟩] }

/-- R88, R188: from reset, or from INIT in any context, a command sequence that conforms to R88 never faults:
the run is good and ends. `conforms` is THE MODEL'S READING of R88 (log entry 13): the byte limit is per
message, and, which R88's five items do not list, no PUSH comes between a FINISH and the next INIT (such a
PUSH takes fault 2 under R83; FaultChecksInOrder states that). -/
def Obligations.ConformingUseNeverFaults : Prop :=
  ∀ (is : List Instr) (start : List CmdWord) (s : State), conforms false 0 is = true →
    (start = [] ∧ s = State.reset) ∨ (start = [0x1000] ∧ s.phase ≠ .faulted) →
    ∃ t, transactAll (start ++ is.map encode) s = .next t ∧ t.good = true ∧ t.idle = true

/-! ## The compression engine (41_compression.md) -/

/-- R106, R107: the bits of a rotation and of a shift. -/
def Obligations.RotationAndShiftBits : Prop :=
  ∀ (x : Word) (n i : Nat), i < 32 →
    (1 ≤ n → n ≤ 31 → (rotr x n).getLsbD i = x.getLsbD ((i + n) % 32)) ∧
    (shr x n).getLsbD i = (if i + n ≤ 31 then x.getLsbD (i + n) else false)

/-- R108, R109: Ch chooses and Maj takes the majority, bit by bit. -/
def Obligations.ChooseAndMajorityBits : Prop :=
  ∀ (x y z : Word) (i : Nat), i < 32 →
    (ch x y z).getLsbD i = (if x.getLsbD i then y.getLsbD i else z.getLsbD i) ∧
    (maj x y z).getLsbD i =
      decide (2 ≤ (x.getLsbD i).toNat + (y.getLsbD i).toNat + (z.getLsbD i).toNat)

/-- R110 to R113: the bits of the four sigma functions; the third term of the small ones is a shift. -/
def Obligations.SigmaBits : Prop :=
  ∀ (x : Word) (i : Nat), i < 32 →
    let b := fun k => x.getLsbD ((i + k) % 32)
    (bsig0 x).getLsbD i = ((b 2 != b 13) != b 22) ∧
    (bsig1 x).getLsbD i = ((b 6 != b 11) != b 25) ∧
    (ssig0 x).getLsbD i = ((b 7 != b 18) != (decide (i + 3 ≤ 31) && x.getLsbD (i + 3))) ∧
    (ssig1 x).getLsbD i = ((b 17 != b 19) != (decide (i + 10 ≤ 31) && x.getLsbD (i + 10)))

/-- R101, R102: the 64 schedule words of a block. -/
def Obligations.ScheduleFollowsRecurrence : Prop :=
  ∀ blk : Block, (schedule blk).length = 64 ∧
    (∀ j < 16, (schedule blk).getD j 0 = blk.extractLsb' (480 - 32 * j) 32) ∧
    (∀ t, 16 ≤ t → t < 64 → (schedule blk).getD t 0 =
      ssig1 ((schedule blk).getD (t - 2) 0) + (schedule blk).getD (t - 7) 0 +
      ssig0 ((schedule blk).getD (t - 15) 0) + (schedule blk).getD (t - 16) 0)

/-- R100, R103, R104, R105: Compress is 64 iterations of the working variables from Hin, added back into Hin
word by word. -/
def Obligations.CompressIsSixtyFourIterations : Prop :=
  ∀ (hin : Words8) (blk : Block) (v : Nat → Words8), v 0 = hin →
    (∀ t < 64,
      let a := v t
      let t1 := a.w7 + bsig1 a.w4 + ch a.w4 a.w5 a.w6 + kRom.getD t 0 + (schedule blk).getD t 0
      let t2 := bsig0 a.w0 + maj a.w0 a.w1 a.w2
      v (t + 1) = ⟨t1 + t2, a.w0, a.w1, a.w2, a.w3 + t1, a.w4, a.w5, a.w6⟩) →
    compress hin blk = ⟨hin.w0 + (v 64).w0, hin.w1 + (v 64).w1, hin.w2 + (v 64).w2, hin.w3 + (v 64).w3,
      hin.w4 + (v 64).w4, hin.w5 + (v 64).w5, hin.w6 + (v 64).w6, hin.w7 + (v 64).w7⟩

/-- R42: the words of a full buffer are parsed big-endian, four bytes to a word. -/
def Obligations.BlockParsedBigEndian : Prop :=
  ∀ (m : List Host.Cell) (blk : Block), readBlock m = some blk →
    ∀ j < 16, ∃ b0 b1 b2 b3, slotRead m (4 * j) = some b0 ∧ slotRead m (4 * j + 1) = some b1 ∧
      slotRead m (4 * j + 2) = some b2 ∧ slotRead m (4 * j + 3) = some b3 ∧
      blockWord blk j = be32 b0 b1 b2 b3 ∧ blk.extractLsb' (480 - 32 * j) 32 = be32 b0 b1 b2 b3

/-- R44: the length field of the last block is big-endian, its high half in W[14] and its low half in
W[15]. -/
def Obligations.LengthFieldBigEndian : Prop :=
  ∀ (v : BitVec 64) (front : List Byte), front.length = 56 →
    (∀ k < 8, (front ++ be64Bytes v)[56 + k]? = some (v.extractLsb' (56 - 8 * k) 8)) ∧
    blockWord (joinBytes (front ++ be64Bytes v)) 14 = v.extractLsb' 32 32 ∧
    blockWord (joinBytes (front ++ be64Bytes v)) 15 = v.extractLsb' 0 32

/-- R116, R22: each K word is the first 32 fraction bits of the cube root of a prime and each IV word those of
the square root, by exact integer arithmetic: the integer part and the word together are the integer root
of the prime times 2^96 (cube) or 2^64 (square). The derivations are the spec's [from general knowledge]. -/
def Obligations.ConstantTablesAreRoots : Prop :=
  let primes := (List.range 312).filter fun p => decide (2 ≤ p) && (List.range p).all fun d => d < 2 || p % d != 0
  let root := fun (e : Nat) (p : Nat) => ((List.range 18).filter fun r => r ^ e ≤ p).length - 1
  primes.length = 64 ∧ kRom.length = 64 ∧
  (∀ t < 64,
    let p := primes.getD t 0
    let r := root 3 p * 2 ^ 32 + (kRom.getD t 0).toNat
    r ^ 3 ≤ p * 2 ^ 96 ∧ p * 2 ^ 96 < (r + 1) ^ 3) ∧
  (∀ t < 8,
    let p := primes.getD t 0
    let r := root 2 p * 2 ^ 32 +
      (([ivRom.w0, ivRom.w1, ivRom.w2, ivRom.w3, ivRom.w4, ivRom.w5, ivRom.w6, ivRom.w7] : List Word).getD t 0).toNat
    r ^ 2 ≤ p * 2 ^ 64 ∧ p * 2 ^ 64 < (r + 1) ^ 2)

/-! ## Several engines, the assembler, the host's functions -/

/-- R54, R162: a step of one engine changes no other engine, and does to that engine what a lone engine's
step does. -/
def Obligations.EnginesDoNotInterfere : Prop :=
  ∀ (n : Nat) (k : Fin n) (sys sys' : Engines n), stepEngine k sys = .next sys' →
    step (sys.get k) = .next (sys'.get k) ∧ ∀ j, j ≠ k → sys'.get j = sys.get j

/-- R54, R55: steps of two engines commute, so the order in which engines move cannot be seen. -/
def Obligations.EngineStepsCommute : Prop :=
  ∀ (n : Nat) (j k : Fin n) (sys a b : Engines n), j ≠ k →
    stepEngine j sys = .next a → stepEngine k sys = .next b →
    ∃ c, stepEngine k a = .next c ∧ stepEngine j b = .next c

/-- R68, R69: a line with its operands in range assembles to the expansion the rules give; a line other than
a raw word assembles to legal words only; and an operand out of range is an error, never a truncation. That
an empty line gives no words, and that a raw word of more than 16 bits is an error, are the model's reading
of R68 (log entry 7). -/
def Obligations.AssembledWordsAreLegal : Prop :=
  let pushes := fun bs : List Nat => bs.map fun b => BitVec.ofNat 16 (0x2000 + b)
  let digest := [(0x4000 : CmdWord), 0x4001, 0x4002, 0x4003, 0x4004, 0x4005, 0x4006, 0x4007]
  assemble .blank = some [] ∧ assemble .init = some [0x1000] ∧ assemble .finish = some [0x3000] ∧
  assemble .stat = some [0x5000] ∧ assemble .readDigest = some digest ∧
  (∀ n, n ≤ 255 → assemble (.push n) = some [BitVec.ofNat 16 (0x2000 + n)] ∧
    assemble (.get n) = some [BitVec.ofNat 16 (0x4000 + n)]) ∧
  (∀ bs : List Nat, (∀ b ∈ bs, b ≤ 255) → assemble (.pushAll bs) = some (pushes bs) ∧
    assemble (.hash bs) = some (0x1000 :: (pushes bs ++ 0x3000 :: digest))) ∧
  (∀ w, w ≤ 65535 → assemble (.rawWord w) = some [BitVec.ofNat 16 w]) ∧
  (∀ w, 65535 < w → assemble (.rawWord w) = none) ∧
  (∀ (l : AsmLine) (ws : List CmdWord), assemble l = some ws → (∀ w, l ≠ .rawWord w) →
    ∀ w ∈ ws, ∃ i, decode w = .instr i) ∧
  (∀ n, 255 < n → assemble (.push n) = none ∧ assemble (.get n) = none) ∧
  (∀ bs : List Nat, (∃ n ∈ bs, 255 < n) → assemble (.pushAll bs) = none ∧ assemble (.hash bs) = none)

/-- R132, R133: the hex form is the eight words in order, each as 8 lowercase digits, most significant first,
64 characters in all; it and digest equality tell exactly equal digests apart. -/
def Obligations.HexFormIdentifiesDigest : Prop :=
  let digits := ['0', '1', '2', '3', '4', '5', '6', '7', '8', '9', 'a', 'b', 'c', 'd', 'e', 'f']
  ∀ d e : Words8,
    hexForm d = ([d.w0, d.w1, d.w2, d.w3, d.w4, d.w5, d.w6, d.w7].flatMap fun w =>
      (List.range 8).map fun k => digits.getD (w.toNat / 16 ^ (7 - k) % 16) ' ') ∧
    (hexForm d).length = 64 ∧ (∀ c ∈ hexForm d, c ∈ digits) ∧
    (digestEq d e = true ↔ d = e) ∧ (hexForm d = hexForm e ↔ d = e)

/-! ## The response signals, and what each engine keeps for itself -/

/-- R60, R61, R67: `rsp_valid` is high exactly where a response is outstanding, its wait is over and `rst` is
low; there `rsp_kind` carries 0 for ACK, 1 for WORD, 2 for ABSENT and 3 for FAULT, and `rsp_data` the
response's data. The wait is the model's form of the open latency (log entry 3), and that the response stays
offered once it is over is the model's choice (log entry 14). Nothing is said of the two
signals while `rsp_valid` is low (log entry 12). -/
def Obligations.ResponseSignalsCarryCodes : Prop :=
  ∀ (s : State) (e : Edge),
    (rspValid s e = true ↔ s.rsp ≠ none ∧ s.wait = 0 ∧ e.rst = false) ∧
    (∀ r, rspValid s e = true → s.rsp = some r →
      rspKindSignal s e = some (match r.kind with
        | .ack => 0
        | .word => 1
        | .absent => 2
        | .fault => 3) ∧
      rspDataSignal s e = some r.data)

/-- R162: every engine of a system starts in the reset state. Beside it each has a seed of the model's own
(log entries 3 and 6), its number, which every step keeps, so that the free latencies of two engines are
unrelated. -/
def Obligations.EnginesStartInResetState : Prop :=
  (∀ k, enginesReset.get k = { State.reset with seed := k }) ∧
  (∀ (n : Nat) (k : Fin n) (sys sys' : Engines n), stepEngine k sys = .next sys' →
    ∀ j, (sys'.get j).seed = (sys.get j).seed)
end

