-- ==== Sys2Proof/Laws/Memory.lean ====
section
/-! SUPPORT. The laws of the block buffer: read after write, the canonical form, the buffer as a run of
bytes. -/

namespace Sys2Proof.Machine

theorem slotRead_slotWrite_same (m : List Host.Cell) (i : Nat) (b : Byte) :
    slotRead (slotWrite m i b) i = some b := by
  induction m with
  | nil => simp [slotWrite, slotRead]
  | cons c m ih =>
    obtain ⟨a, x⟩ := c
    by_cases h1 : i < a
    · simp [slotWrite, h1, slotRead]
    · by_cases h2 : i = a
      · simp [slotWrite, h2, slotRead]
      · have h3 : ¬ a = i := fun h => h2 h.symm
        simp [slotWrite, h1, h2, h3, slotRead, ih]

theorem slotRead_slotWrite_other (m : List Host.Cell) {i j : Nat} (b : Byte) (hij : i ≠ j) :
    slotRead (slotWrite m i b) j = slotRead m j := by
  induction m with
  | nil => simp [slotWrite, slotRead, hij]
  | cons c m ih =>
    obtain ⟨a, x⟩ := c
    by_cases h1 : i < a
    · simp [slotWrite, h1, slotRead, hij]
    · by_cases h2 : i = a
      · subst h2
        simp [slotWrite, slotRead, hij]
      · simp [slotWrite, h1, h2, slotRead, ih]

/-- A written cell is the new one or an old one. -/
theorem mem_slotWrite {m : List Host.Cell} {i : Nat} {b : Byte} {c : Host.Cell}
    (h : c ∈ slotWrite m i b) : c = (i, b) ∨ c ∈ m := by
  induction m with
  | nil => simpa [slotWrite] using h
  | cons d m ih =>
    obtain ⟨a, x⟩ := d
    by_cases h1 : i < a
    · simpa [slotWrite, h1] using h
    · by_cases h2 : i = a
      · simp only [slotWrite, h2, if_true, if_false, lt_irrefl, List.mem_cons] at h ⊢
        tauto
      · simp only [slotWrite, h1, h2, if_false, List.mem_cons] at h ⊢
        rcases h with h | h
        · exact .inr (.inl h)
        · rcases ih h with h | h
          · exact .inl h
          · exact .inr (.inr h)

/-- Writing a slot of the buffer keeps the canonical form. -/
theorem slotWrite_wf {m : List Host.Cell} {i : Nat} (b : Byte) (hm : Memory.wf m) (hi : i < 64) :
    Memory.wf (slotWrite m i b) := by
  refine ⟨?_, fun c hc => ?_⟩
  · obtain ⟨hs, -⟩ := hm
    induction m with
    | nil => simp [slotWrite]
    | cons d m ih =>
      obtain ⟨a, x⟩ := d
      obtain ⟨hd, hs⟩ := List.pairwise_cons.1 hs
      by_cases h1 : i < a
      · simp only [slotWrite, h1, if_true, List.pairwise_cons]
        refine ⟨fun c hc => ?_, hd, hs⟩
        rcases List.mem_cons.1 hc with rfl | hc
        · exact h1
        · exact h1.trans (hd c hc)
      · by_cases h2 : i = a
        · subst h2
          rw [slotWrite, if_neg h1, if_pos rfl, List.pairwise_cons]
          exact ⟨hd, (List.pairwise_cons.1 ‹_›).2⟩
        · simp only [slotWrite, h1, h2, if_false, List.pairwise_cons]
          refine ⟨fun c hc => ?_, ih hs⟩
          rcases mem_slotWrite hc with rfl | hc
          · simp only; omega
          · exact hd c hc
  · rcases mem_slotWrite hc with rfl | hc
    · exact hi
    · exact hm.2 c hc

theorem nil_wf : Memory.wf [] := by simp [Memory.wf]

@[simp] theorem cellsFrom_length (i : Nat) (bs : List Byte) : (cellsFrom i bs).length = bs.length := by
  induction bs generalizing i with
  | nil => rfl
  | cons b bs ih => simp [cellsFrom, ih]

@[simp] theorem cellsFrom_bytes (i : Nat) (bs : List Byte) : (cellsFrom i bs).map Prod.snd = bs := by
  induction bs generalizing i with
  | nil => rfl
  | cons b bs ih => simp [cellsFrom, ih]

/-- The cell after a run of bytes extends the run. -/
theorem slotWrite_cellsFrom (i : Nat) (bs : List Byte) (b : Byte) :
    slotWrite (cellsFrom i bs) (i + bs.length) b = cellsFrom i (bs ++ [b]) := by
  induction bs generalizing i with
  | nil => simp [cellsFrom, slotWrite]
  | cons c bs ih =>
    have h := ih (i + 1)
    simp only [List.length_cons, cellsFrom, slotWrite, List.cons_append]
    rw [if_neg (by omega), if_neg (by omega), ← h]
    congr 2; omega

/-- What a slot of a run of bytes holds. -/
theorem slotRead_cellsFrom (i j : Nat) (bs : List Byte) :
    slotRead (cellsFrom i bs) j = if i ≤ j then bs[j - i]? else none := by
  induction bs generalizing i with
  | nil => simp [cellsFrom, slotRead]
  | cons c bs ih =>
    simp only [cellsFrom, slotRead, ih]
    by_cases h1 : i = j
    · simp [h1]
    · by_cases h2 : i ≤ j
      · obtain ⟨d, rfl⟩ : ∃ d, j = i + 1 + d := ⟨j - i - 1, by omega⟩
        have e : i + 1 + d - i = d + 1 := by omega
        simp [h1, h2, e]
      · simp [h1, h2, show ¬ i + 1 ≤ j by omega]

/-- Reading n slots gives the bytes they all hold. -/
theorem slotsFrom_of_reads {m : List Host.Cell} {bs : List Byte} {i : Nat}
    (h : ∀ k, (hk : k < bs.length) → slotRead m (i + k) = some bs[k]) : slotsFrom m i bs.length = some bs := by
  induction bs generalizing i with
  | nil => rfl
  | cons b bs ih =>
    have h0 : slotRead m i = some b := h 0 (by simp)
    have h1 : slotsFrom m (i + 1) bs.length = some bs := ih fun k hk => by
      have := h (k + 1) (by simpa using hk)
      simpa [Nat.add_assoc, Nat.add_comm 1] using this
    simp [slotsFrom, h0, h1]

/-- A full buffer is read as its 64 bytes in slot order (R11). -/
theorem readBlock_cellsFrom {bs : List Byte} (h : bs.length = 64) :
    readBlock (cellsFrom 0 bs) = some (joinBytes bs) := by
  have := slotsFrom_of_reads (m := cellsFrom 0 bs) (bs := bs) (i := 0) fun k hk => by
    simp [slotRead_cellsFrom, hk]
  simp [readBlock, ← h, this]

/-- A canonical cell list holding bytes exactly in the slots from i up to j is a run of bytes. -/
theorem eq_cellsFrom {m : List Host.Cell} {i n : Nat} (hs : m.Pairwise fun c d => c.1 < d.1)
    (hlow : ∀ c ∈ m, i ≤ c.1) (hall : ∀ k, i ≤ k → ((slotRead m k).isSome = decide (k < n))) :
    m = cellsFrom i (m.map Prod.snd) ∧ (i ≤ n → m.length = n - i) := by
  induction m generalizing i with
  | nil =>
    refine ⟨rfl, fun h => ?_⟩
    have := hall i le_rfl
    simp [slotRead] at this
    simp; omega
  | cons c m ih =>
    obtain ⟨a, x⟩ := c
    obtain ⟨hd, hs⟩ := List.pairwise_cons.1 hs
    have hin : i < n := by
      have h1 := hlow (a, x) (by simp)
      have h2 := hall a h1
      simp only [slotRead, if_true, Option.isSome_some] at h2
      have := (decide_eq_true_iff.1 h2.symm); simp only at h1; omega
    have hai : a = i := by
      by_contra hne
      have h1 : i ≤ a := hlow (a, x) (by simp)
      have h2 := hall i le_rfl
      have h3 : ∀ (l : List Host.Cell), (∀ c ∈ l, i < c.1) → slotRead l i = none := by
        intro l hl
        induction l with
        | nil => rfl
        | cons d l ihl =>
          obtain ⟨e, y⟩ := d
          have : i < e := hl (e, y) (by simp)
          simp only [slotRead, if_neg (show ¬ e = i by omega)]
          exact ihl fun c hc => hl c (by simp [hc])
      rw [h3 ((a, x) :: m) (fun c hc => by
        rcases List.mem_cons.1 hc with rfl | hc
        · simp only; omega
        · have := hd c hc; simp only at this; omega)] at h2
      simp at h2; omega
    subst hai
    have key := ih (i := a + 1) hs (fun c hc => hd c hc) (fun k hk => by
      have := hall k (by omega)
      simpa [slotRead, show ¬ a = k by omega] using this)
    refine ⟨?_, fun _ => ?_⟩
    · conv_lhs => rw [key.1]
      simp [cellsFrom]
    · have := key.2 (by omega)
      simp only [List.length_cons]; omega

end Sys2Proof.Machine
end

