-- ==== Sys2Proof/Laws/State.lean ====
section
/-! SUPPORT. What each update of the state leaves in each field, so that no proof unfolds a record update. -/

namespace Sys2Proof.Machine

@[simp] theorem respond_h (k : RspKind) (d : Word) (s : State) : (respond k d s).h = s.h := rfl
@[simp] theorem respond_buf (k : RspKind) (d : Word) (s : State) : (respond k d s).buf = s.buf := rfl
@[simp] theorem respond_len (k : RspKind) (d : Word) (s : State) : (respond k d s).len = s.len := rfl
@[simp] theorem respond_phase (k : RspKind) (d : Word) (s : State) : (respond k d s).phase = s.phase := rfl
@[simp] theorem respond_cause (k : RspKind) (d : Word) (s : State) : (respond k d s).cause = s.cause := rfl
@[simp] theorem respond_rsp (k : RspKind) (d : Word) (s : State) : (respond k d s).rsp = some ⟨k, d⟩ := rfl
@[simp] theorem respond_wait (k : RspKind) (d : Word) (s : State) : (respond k d s).wait = s.wait := rfl
@[simp] theorem respond_offer (k : RspKind) (d : Word) (s : State) : (respond k d s).offer = s.offer := rfl
@[simp] theorem respond_accepted (k : RspKind) (d : Word) (s : State) : (respond k d s).accepted = s.accepted := rfl
@[simp] theorem respond_seed (k : RspKind) (d : Word) (s : State) : (respond k d s).seed = s.seed := rfl
@[simp] theorem respond_inputs (k : RspKind) (d : Word) (s : State) : (respond k d s).inputs = s.inputs := rfl
@[simp] theorem respond_delivered (k : RspKind) (d : Word) (s : State) : (respond k d s).delivered = s.delivered := rfl

@[simp] theorem raiseFault_h (c : FaultCause) (s : State) : (raiseFault c s).h = s.h := rfl
@[simp] theorem raiseFault_buf (c : FaultCause) (s : State) : (raiseFault c s).buf = s.buf := rfl
@[simp] theorem raiseFault_len (c : FaultCause) (s : State) : (raiseFault c s).len = s.len := rfl
@[simp] theorem raiseFault_phase (c : FaultCause) (s : State) : (raiseFault c s).phase = .faulted := rfl
@[simp] theorem raiseFault_cause (c : FaultCause) (s : State) : (raiseFault c s).cause = causeCode c := rfl
@[simp] theorem raiseFault_rsp (c : FaultCause) (s : State) : (raiseFault c s).rsp = some ⟨.fault, causeData (causeCode c)⟩ := rfl
@[simp] theorem raiseFault_wait (c : FaultCause) (s : State) : (raiseFault c s).wait = s.wait := rfl
@[simp] theorem raiseFault_offer (c : FaultCause) (s : State) : (raiseFault c s).offer = s.offer := rfl
@[simp] theorem raiseFault_accepted (c : FaultCause) (s : State) : (raiseFault c s).accepted = s.accepted := rfl
@[simp] theorem raiseFault_seed (c : FaultCause) (s : State) : (raiseFault c s).seed = s.seed := rfl
@[simp] theorem raiseFault_inputs (c : FaultCause) (s : State) : (raiseFault c s).inputs = s.inputs := rfl
@[simp] theorem raiseFault_delivered (c : FaultCause) (s : State) : (raiseFault c s).delivered = s.delivered := rfl

@[simp] theorem newContext_h (s : State) : (newContext s).h = ivRom := rfl
@[simp] theorem newContext_buf (s : State) : (newContext s).buf = [] := rfl
@[simp] theorem newContext_len (s : State) : (newContext s).len = 0 := rfl
@[simp] theorem newContext_phase (s : State) : (newContext s).phase = .accumulating := rfl
@[simp] theorem newContext_cause (s : State) : (newContext s).cause = s.cause := rfl
@[simp] theorem newContext_rsp (s : State) : (newContext s).rsp = s.rsp := rfl
@[simp] theorem newContext_wait (s : State) : (newContext s).wait = s.wait := rfl
@[simp] theorem newContext_offer (s : State) : (newContext s).offer = s.offer := rfl
@[simp] theorem newContext_accepted (s : State) : (newContext s).accepted = s.accepted := rfl
@[simp] theorem newContext_seed (s : State) : (newContext s).seed = s.seed := rfl
@[simp] theorem newContext_inputs (s : State) : (newContext s).inputs = s.inputs := rfl
@[simp] theorem newContext_delivered (s : State) : (newContext s).delivered = s.delivered := rfl

@[simp] theorem hardwareReset_h (s : State) : (hardwareReset s).h = ivRom := rfl
@[simp] theorem hardwareReset_buf (s : State) : (hardwareReset s).buf = [] := rfl
@[simp] theorem hardwareReset_len (s : State) : (hardwareReset s).len = 0 := rfl
@[simp] theorem hardwareReset_phase (s : State) : (hardwareReset s).phase = .accumulating := rfl
@[simp] theorem hardwareReset_cause (s : State) : (hardwareReset s).cause = 0 := rfl
@[simp] theorem hardwareReset_rsp (s : State) : (hardwareReset s).rsp = none := rfl
@[simp] theorem hardwareReset_wait (s : State) : (hardwareReset s).wait = 0 := rfl
@[simp] theorem hardwareReset_offer (s : State) : (hardwareReset s).offer = none := rfl
@[simp] theorem hardwareReset_accepted (s : State) : (hardwareReset s).accepted = s.accepted := rfl
@[simp] theorem hardwareReset_seed (s : State) : (hardwareReset s).seed = s.seed := rfl
@[simp] theorem hardwareReset_inputs (s : State) : (hardwareReset s).inputs = s.inputs := rfl
@[simp] theorem hardwareReset_delivered (s : State) : (hardwareReset s).delivered = [] := rfl

@[simp] theorem memWrite_h (i : Nat) (b : Byte) (s : State) : (memWrite i b s).h = s.h := rfl
@[simp] theorem memWrite_buf (i : Nat) (b : Byte) (s : State) : (memWrite i b s).buf = slotWrite s.buf i b := rfl
@[simp] theorem memWrite_len (i : Nat) (b : Byte) (s : State) : (memWrite i b s).len = s.len := rfl
@[simp] theorem memWrite_phase (i : Nat) (b : Byte) (s : State) : (memWrite i b s).phase = s.phase := rfl
@[simp] theorem memWrite_cause (i : Nat) (b : Byte) (s : State) : (memWrite i b s).cause = s.cause := rfl
@[simp] theorem memWrite_rsp (i : Nat) (b : Byte) (s : State) : (memWrite i b s).rsp = s.rsp := rfl
@[simp] theorem memWrite_wait (i : Nat) (b : Byte) (s : State) : (memWrite i b s).wait = s.wait := rfl
@[simp] theorem memWrite_offer (i : Nat) (b : Byte) (s : State) : (memWrite i b s).offer = s.offer := rfl
@[simp] theorem memWrite_accepted (i : Nat) (b : Byte) (s : State) : (memWrite i b s).accepted = s.accepted := rfl
@[simp] theorem memWrite_seed (i : Nat) (b : Byte) (s : State) : (memWrite i b s).seed = s.seed := rfl
@[simp] theorem memWrite_inputs (i : Nat) (b : Byte) (s : State) : (memWrite i b s).inputs = s.inputs := rfl
@[simp] theorem memWrite_delivered (i : Nat) (b : Byte) (s : State) : (memWrite i b s).delivered = s.delivered := rfl

@[simp] theorem storeByte_h (b : Byte) (s : State) : (storeByte b s).h = s.h := rfl
@[simp] theorem storeByte_buf (b : Byte) (s : State) : (storeByte b s).buf = slotWrite s.buf (writeOffset s).toNat b := rfl
@[simp] theorem storeByte_len (b : Byte) (s : State) : (storeByte b s).len = s.len + 1 := rfl
@[simp] theorem storeByte_phase (b : Byte) (s : State) : (storeByte b s).phase = s.phase := rfl
@[simp] theorem storeByte_cause (b : Byte) (s : State) : (storeByte b s).cause = s.cause := rfl
@[simp] theorem storeByte_rsp (b : Byte) (s : State) : (storeByte b s).rsp = s.rsp := rfl
@[simp] theorem storeByte_wait (b : Byte) (s : State) : (storeByte b s).wait = s.wait := rfl
@[simp] theorem storeByte_offer (b : Byte) (s : State) : (storeByte b s).offer = s.offer := rfl
@[simp] theorem storeByte_accepted (b : Byte) (s : State) : (storeByte b s).accepted = s.accepted := rfl
@[simp] theorem storeByte_seed (b : Byte) (s : State) : (storeByte b s).seed = s.seed := rfl
@[simp] theorem storeByte_inputs (b : Byte) (s : State) : (storeByte b s).inputs = s.inputs := rfl
@[simp] theorem storeByte_delivered (b : Byte) (s : State) : (storeByte b s).delivered = s.delivered := rfl

@[simp] theorem latencyOf_inputs (w : CmdWord) (s : State) (es : List Edge) :
    latencyOf w { s with inputs := es } = latencyOf w s := rfl

@[simp] theorem acceptCommand_h (w : CmdWord) (s : State) : (acceptCommand w s).h = s.h := rfl
@[simp] theorem acceptCommand_buf (w : CmdWord) (s : State) : (acceptCommand w s).buf = s.buf := rfl
@[simp] theorem acceptCommand_len (w : CmdWord) (s : State) : (acceptCommand w s).len = s.len := rfl
@[simp] theorem acceptCommand_phase (w : CmdWord) (s : State) : (acceptCommand w s).phase = s.phase := rfl
@[simp] theorem acceptCommand_cause (w : CmdWord) (s : State) : (acceptCommand w s).cause = s.cause := rfl
@[simp] theorem acceptCommand_rsp (w : CmdWord) (s : State) : (acceptCommand w s).rsp = s.rsp := rfl
@[simp] theorem acceptCommand_wait (w : CmdWord) (s : State) : (acceptCommand w s).wait = latencyOf w s := rfl
@[simp] theorem acceptCommand_offer (w : CmdWord) (s : State) : (acceptCommand w s).offer = none := rfl
@[simp] theorem acceptCommand_accepted (w : CmdWord) (s : State) : (acceptCommand w s).accepted = s.accepted + 1 := rfl
@[simp] theorem acceptCommand_seed (w : CmdWord) (s : State) : (acceptCommand w s).seed = s.seed := rfl
@[simp] theorem acceptCommand_inputs (w : CmdWord) (s : State) : (acceptCommand w s).inputs = s.inputs := rfl
@[simp] theorem acceptCommand_delivered (w : CmdWord) (s : State) : (acceptCommand w s).delivered = s.delivered := rfl

@[simp] theorem deliver_h (s : State) : (deliver s).h = s.h := rfl
@[simp] theorem deliver_buf (s : State) : (deliver s).buf = s.buf := rfl
@[simp] theorem deliver_len (s : State) : (deliver s).len = s.len := rfl
@[simp] theorem deliver_phase (s : State) : (deliver s).phase = s.phase := rfl
@[simp] theorem deliver_cause (s : State) : (deliver s).cause = s.cause := rfl
@[simp] theorem deliver_rsp (s : State) : (deliver s).rsp = none := rfl
@[simp] theorem deliver_wait (s : State) : (deliver s).wait = s.wait := rfl
@[simp] theorem deliver_offer (s : State) : (deliver s).offer = s.offer := rfl
@[simp] theorem deliver_accepted (s : State) : (deliver s).accepted = s.accepted := rfl
@[simp] theorem deliver_seed (s : State) : (deliver s).seed = s.seed := rfl
@[simp] theorem deliver_inputs (s : State) : (deliver s).inputs = s.inputs := rfl
@[simp] theorem deliver_delivered (s : State) : (deliver s).delivered = s.delivered ++ s.rsp.toList := rfl

@[simp] theorem passEdge_h (e : Edge) (s : State) : (passEdge e s).h = s.h := rfl
@[simp] theorem passEdge_buf (e : Edge) (s : State) : (passEdge e s).buf = s.buf := rfl
@[simp] theorem passEdge_len (e : Edge) (s : State) : (passEdge e s).len = s.len := rfl
@[simp] theorem passEdge_phase (e : Edge) (s : State) : (passEdge e s).phase = s.phase := rfl
@[simp] theorem passEdge_cause (e : Edge) (s : State) : (passEdge e s).cause = s.cause := rfl
@[simp] theorem passEdge_rsp (e : Edge) (s : State) : (passEdge e s).rsp = s.rsp := rfl
@[simp] theorem passEdge_wait (e : Edge) (s : State) : (passEdge e s).wait = s.wait - 1 := rfl
@[simp] theorem passEdge_offer (e : Edge) (s : State) : (passEdge e s).offer = if e.cmdValid then some e.cmdWord else none := rfl
@[simp] theorem passEdge_accepted (e : Edge) (s : State) : (passEdge e s).accepted = s.accepted := rfl
@[simp] theorem passEdge_seed (e : Edge) (s : State) : (passEdge e s).seed = s.seed := rfl
@[simp] theorem passEdge_inputs (e : Edge) (s : State) : (passEdge e s).inputs = s.inputs := rfl
@[simp] theorem passEdge_delivered (e : Edge) (s : State) : (passEdge e s).delivered = s.delivered := rfl

@[simp] theorem reset_h : State.reset.h = ivRom := rfl
@[simp] theorem reset_buf : State.reset.buf = [] := rfl
@[simp] theorem reset_len : State.reset.len = 0 := rfl
@[simp] theorem reset_phase : State.reset.phase = .accumulating := rfl
@[simp] theorem reset_cause : State.reset.cause = 0 := rfl
@[simp] theorem reset_rsp : State.reset.rsp = none := rfl
@[simp] theorem reset_wait : State.reset.wait = 0 := rfl
@[simp] theorem reset_offer : State.reset.offer = none := rfl
@[simp] theorem reset_accepted : State.reset.accepted = 0 := rfl
@[simp] theorem reset_seed : State.reset.seed = 0 := rfl
@[simp] theorem reset_inputs : State.reset.inputs = [] := rfl
@[simp] theorem reset_delivered : State.reset.delivered = [] := rfl

end Sys2Proof.Machine
end

