-- ==== Sys2Proof/Laws/Ops.lean ====
section
/-! SUPPORT. What each shared operation can do: sequencing, the FAULTED check, the push path. -/

namespace Sys2Proof.Machine

@[simp] theorem andThen_next (s : State) (k : State → Host.Outcome State Fault Refusal) :
    andThen (.next s) k = k s := rfl

@[simp] theorem andThen_fault (r : Fault) (k : State → Host.Outcome State Fault Refusal) :
    andThen (.fault r) k = .fault r := rfl

@[simp] theorem andThen_refused (r : Refusal) (k : State → Host.Outcome State Fault Refusal) :
    andThen (.refused r) k = .refused r := rfl

@[simp] theorem andThen_pure (o : Host.Outcome State Fault Refusal) : andThen o .next = o := by
  cases o <;> rfl

theorem andThen_assoc (o : Host.Outcome State Fault Refusal) (j k : State → Host.Outcome State Fault Refusal) :
    andThen (andThen o j) k = andThen o fun s => andThen (j s) k := by
  cases o <;> rfl

/-- A sequence that answers a next state went through a next state. -/
theorem andThen_eq_next {o : Host.Outcome State Fault Refusal} {k : State → Host.Outcome State Fault Refusal}
    {t : State} : andThen o k = .next t ↔ ∃ s, o = .next s ∧ k s = .next t := by
  cases o <;> simp [andThen]

theorem unlessFaulted_of_faulted {s : State} (h : s.phase = .faulted)
    (k : State → Host.Outcome State Fault Refusal) :
    unlessFaulted s k = .next (respond .fault (causeData s.cause) s) := by
  simp [unlessFaulted, h]

theorem unlessFaulted_of_serving {s : State} (h : s.phase ≠ .faulted)
    (k : State → Host.Outcome State Fault Refusal) : unlessFaulted s k = k s := by
  simp [unlessFaulted, h]

/-- The FAULTED check in one line: the answer of R152, or what follows. -/
theorem unlessFaulted_eq_next {s t : State} {k : State → Host.Outcome State Fault Refusal}
    (h : unlessFaulted s k = .next t) :
    (s.phase = .faulted ∧ t = respond .fault (causeData s.cause) s) ∨ (s.phase ≠ .faulted ∧ k s = .next t) := by
  by_cases hf : s.phase = .faulted
  · rw [unlessFaulted_of_faulted hf] at h
    cases h
    exact .inl ⟨hf, rfl⟩
  · exact .inr ⟨hf, by rwa [unlessFaulted_of_serving hf] at h⟩

/-- The write offset is LEN mod 64 (R26). -/
@[simp] theorem writeOffset_toNat (s : State) : (writeOffset s).toNat = s.len.toNat % 64 := by
  simp [writeOffset]

theorem writeOffset_eq_iff (s : State) {n : Nat} (hn : n < 64) :
    writeOffset s = BitVec.ofNat 6 n ↔ s.len.toNat % 64 = n := by
  rw [← BitVec.toNat_inj]
  simp [Nat.mod_eq_of_lt hn]

theorem len_succ_mod (l : BitVec 64) : (l + 1).toNat % 64 = (l.toNat % 64 + 1) % 64 := by
  rw [BitVec.toNat_add]
  simp

/-- The longest message is 2^61 − 1 bytes (R7). -/
theorem maxMsgBytes_toNat : maxMsgBytes.toNat = 2 ^ 61 - 1 := by decide

/-- The length check of R83 as numbers. -/
theorem maxMsgBytes_le_iff (l : BitVec 64) : maxMsgBytes ≤ l ↔ 2 ^ 61 - 1 ≤ l.toNat := by
  rw [BitVec.le_def, maxMsgBytes_toNat]

/-- Everything the end of a block can do (R81, R43). -/
theorem consumeBlock_cases (s : State) :
    (∃ blk, readBlock s.buf = some blk ∧
      consumeBlock s = .next { s with h := compress s.h blk, buf := [] }) ∨
    (readBlock s.buf = none ∧ consumeBlock s = .fault .unwrittenRead) := by
  unfold consumeBlock
  cases h : readBlock s.buf with
  | none => exact .inr ⟨rfl, rfl⟩
  | some blk => exact .inl ⟨blk, rfl, rfl⟩

/-- A pushed byte changes H, BUF and LEN alone, and LEN rises by one (R81). -/
theorem pushByte_frame {b : Byte} {s t : State} (h : pushByte b s = .next t) :
    t = { s with h := t.h, buf := t.buf, len := s.len + 1 } := by
  unfold pushByte at h
  split at h
  · obtain ⟨blk, -, hb⟩ | ⟨-, hb⟩ := consumeBlock_cases (storeByte b s) <;> rw [hb] at h <;> cases h
    rfl
  · cases h
    rfl

/-- Where a push leaves LEN at a block boundary it has cleared BUF (R81). -/
theorem pushByte_buf_of_boundary {b : Byte} {s t : State} (h : pushByte b s = .next t)
    (hl : t.len.toNat % 64 = 0) : t.buf = [] := by
  have hlen : t.len = s.len + 1 := by rw [pushByte_frame h]
  have hzero : writeOffset (storeByte b s) = 0 ↔ _ := writeOffset_eq_iff (storeByte b s) (n := 0) (by omega)
  rw [storeByte_len, ← hlen] at hzero
  rw [pushByte, if_pos (hzero.2 hl)] at h
  obtain ⟨blk, -, hb⟩ | ⟨-, hb⟩ := consumeBlock_cases (storeByte b s) <;> rw [hb] at h <;> cases h
  rfl

/-- Away from the end of a block a push is the store alone (R81). -/
theorem pushByte_of_not_boundary {b : Byte} {s : State} (h : s.len.toNat % 64 ≠ 63) :
    pushByte b s = .next (storeByte b s) := by
  have hzero : writeOffset (storeByte b s) = 0 ↔ _ := writeOffset_eq_iff (storeByte b s) (n := 0) (by omega)
  rw [storeByte_len, len_succ_mod] at hzero
  rw [pushByte, if_neg (mt hzero.1 (by omega))]

theorem pushByte_len {b : Byte} {s t : State} (h : pushByte b s = .next t) : t.len = s.len + 1 := by
  rw [pushByte_frame h]

/-- A push never refuses. -/
theorem pushByte_ne_refused (b : Byte) (s : State) (r : Refusal) : pushByte b s ≠ .refused r := by
  unfold pushByte
  split
  · obtain ⟨blk, -, hb⟩ | ⟨-, hb⟩ := consumeBlock_cases (storeByte b s) <;> simp [hb]
  · simp

/-- A pushed byte keeps the canonical form of BUF. -/
theorem pushByte_bufCanonical {b : Byte} {s t : State} (hs : Memory.wf s.buf) (h : pushByte b s = .next t) :
    Memory.wf t.buf := by
  unfold pushByte at h
  split at h
  · obtain ⟨blk, -, hb⟩ | ⟨-, hb⟩ := consumeBlock_cases (storeByte b s) <;> rw [hb] at h <;> cases h
    exact nil_wf
  · cases h
    exact slotWrite_wf b hs (writeOffset s).isLt

/-- The reset state's buffer is in its canonical form. -/
theorem reset_bufCanonical : Memory.wf State.reset.buf := nil_wf

@[simp] theorem pushBytes_nil (s : State) : pushBytes [] s = .next s := rfl

theorem pushBytes_cons (b : Byte) (bs : List Byte) (s : State) :
    pushBytes (b :: bs) s = andThen (pushByte b s) (pushBytes bs) := rfl

theorem pushBytes_append (bs cs : List Byte) (s : State) :
    pushBytes (bs ++ cs) s = andThen (pushBytes bs s) (pushBytes cs) := by
  induction bs generalizing s with
  | nil => rfl
  | cons b bs ih =>
    simp only [List.cons_append, pushBytes_cons, andThen_assoc]
    congr 1
    funext t
    exact ih t

/-- Pushed bytes change H, BUF and LEN alone, and LEN counts them (R26, R81). -/
theorem pushBytes_frame {bs : List Byte} {s t : State} (h : pushBytes bs s = .next t) :
    t = { s with h := t.h, buf := t.buf, len := s.len + BitVec.ofNat 64 bs.length } := by
  induction bs generalizing s with
  | nil => cases h; simp
  | cons b bs ih =>
    obtain ⟨m, hm, ht⟩ := andThen_eq_next.1 h
    have h2 := pushByte_frame hm
    rw [ih ht, h2]
    simp only [State.mk.injEq, true_and, and_true, List.length_cons]
    rw [BitVec.add_assoc]
    congr 1
    rw [Nat.add_comm, BitVec.ofNat_add]
    rfl

theorem pushBytes_ne_refused (bs : List Byte) (s : State) (r : Refusal) : pushBytes bs s ≠ .refused r := by
  induction bs generalizing s with
  | nil => simp
  | cons b bs ih =>
    rw [pushBytes_cons]
    cases h : pushByte b s with
    | next t => simpa using ih t
    | fault q => simp
    | refused q => exact absurd h (pushByte_ne_refused b s q)

theorem pushBytes_bufCanonical {bs : List Byte} {s t : State} (hs : Memory.wf s.buf)
    (h : pushBytes bs s = .next t) : Memory.wf t.buf := by
  induction bs generalizing s with
  | nil => cases h; exact hs
  | cons b bs ih =>
    obtain ⟨m, hm, ht⟩ := andThen_eq_next.1 h
    exact ih (pushByte_bufCanonical hs hm) ht

end Sys2Proof.Machine
end

