-- ==== Sys2Proof/Laws/Padding.lean ====
section
/-! SUPPORT. The push path over a run of bytes is the fold of compressions over their blocks, and the
padding controller pushes the padding of R87. -/

namespace Sys2Proof.Machine

/-- A sequence shorter than a block has no whole block. -/
theorem blocksOf_of_lt {bs : List Byte} (h : bs.length < 64) : blocksOf bs = [] := by
  simp [blocksOf, blockBytes, Nat.div_eq_of_lt h]

/-- The first block of a sequence that begins with 64 bytes. -/
theorem blocksOf_append {as : List Byte} (bs : List Byte) (h : as.length = 64) :
    blocksOf (as ++ bs) = joinBytes as :: blocksOf bs := by
  have hl : (as ++ bs).length / 64 = bs.length / 64 + 1 := by simp [h]
  unfold blocksOf
  simp only [blockBytes, hl, List.range_succ_eq_map, List.map_cons, List.map_map]
  congr 1
  · simp [← h]
  · apply List.map_congr_left
    intro i _
    have e : 64 * (i + 1) = as.length + 64 * i := by omega
    simp only [Function.comp, Nat.succ_eq_add_one]
    rw [e, ← List.drop_drop, List.drop_left]

@[simp] theorem foldBlocks_of_lt {bs : List Byte} (x : Words8) (h : bs.length < 64) : foldBlocks x bs = x := by
  simp [foldBlocks, blocksOf_of_lt h]

theorem foldBlocks_append {as : List Byte} (x : Words8) (bs : List Byte) (h : as.length = 64) :
    foldBlocks x (as ++ bs) = foldBlocks (compress x (joinBytes as)) bs := by
  simp [foldBlocks, blocksOf_append bs h]

/-- The buffer holds the bytes bs in slots 0, 1, …, and LEN[5:0] counts them (R24). -/
structure Holds (s : State) (bs : List Byte) : Prop where
  cells : s.buf = cellsFrom 0 bs
  count : bs.length = s.len.toNat % 64

theorem Holds.short {s : State} {bs : List Byte} (h : Holds s bs) : bs.length < 64 := by
  have := h.count; omega

/-- A buffer that meets R24 holds its own bytes as a run. -/
theorem holds_of_bufHolds {s : State} (hw : Memory.wf s.buf)
    (h : ∀ i < 64, (slotRead s.buf i).isSome = decide (i < s.len.toNat % 64)) : Holds s (bufferedBytes s) := by
  have hnone : ∀ (m : List Host.Cell) (i : Nat), (∀ c ∈ m, c.1 < 64) → 64 ≤ i → slotRead m i = none := by
    intro m i hm hi
    induction m with
    | nil => rfl
    | cons d m ih =>
      obtain ⟨a, x⟩ := d
      have : a < 64 := hm (a, x) (by simp)
      rw [slotRead, if_neg (by omega)]
      exact ih fun c hc => hm c (by simp [hc])
  have key := eq_cellsFrom (m := s.buf) (i := 0) (n := s.len.toNat % 64) hw.1 (fun _ _ => Nat.zero_le _)
    fun k _ => by
      by_cases hk : k < 64
      · exact h k hk
      · rw [hnone _ _ hw.2 (by omega)]
        simp; omega
  exact ⟨key.1, by simpa [bufferedBytes] using key.2 (Nat.zero_le _)⟩

/-- Pushing one byte on a buffer that holds bs: the byte joins the run, or completes a block (R81). -/
theorem pushByte_run {s : State} {bs : List Byte} (b : Byte) (hs : Holds s bs) :
    pushByte b s = .next (if bs.length = 63
      then { s with h := compress s.h (joinBytes (bs ++ [b])), buf := [], len := s.len + 1 }
      else { s with buf := cellsFrom 0 (bs ++ [b]), len := s.len + 1 }) := by
  have hbuf : (storeByte b s).buf = cellsFrom 0 (bs ++ [b]) := by
    rw [storeByte_buf, hs.cells, writeOffset_toNat, ← hs.count]
    simpa using slotWrite_cellsFrom 0 bs b
  have hzero : writeOffset (storeByte b s) = 0 ↔ bs.length = 63 := by
    have h1 : writeOffset (storeByte b s) = 0 ↔ _ := writeOffset_eq_iff (storeByte b s) (n := 0) (by omega)
    rw [storeByte_len, len_succ_mod, ← hs.count] at h1
    have := hs.short
    exact h1.trans (by omega)
  unfold pushByte
  by_cases h : bs.length = 63
  · rw [if_pos (hzero.2 h), if_pos h, consumeBlock, hbuf, readBlock_cellsFrom (by simp [h])]
    rfl
  · rw [if_neg (mt hzero.1 h), if_neg h, ← hbuf]
    rfl

/-- Pushing bytes on a buffer that holds bs: H folds the compressions of the whole blocks of the joined
run, and BUF keeps the rest (R24, R81, R89). -/
theorem pushBytes_run {s : State} {bs : List Byte} (ds : List Byte) (hs : Holds s bs) :
    pushBytes ds s = .next { s with
      h := foldBlocks s.h (bs ++ ds)
      buf := cellsFrom 0 ((bs ++ ds).drop (64 * ((bs ++ ds).length / 64)))
      len := s.len + BitVec.ofNat 64 ds.length } := by
  induction ds generalizing s bs with
  | nil =>
    have h := hs.short
    simp [foldBlocks_of_lt _ h, Nat.div_eq_of_lt h, ← hs.cells]
  | cons d ds ih =>
    have hlen : s.len + 1 + BitVec.ofNat 64 ds.length = s.len + BitVec.ofNat 64 (ds.length + 1) := by
      rw [BitVec.add_assoc, Nat.add_comm ds.length 1, BitVec.ofNat_add]
      rfl
    have hcount := len_succ_mod s.len
    rw [← hs.count] at hcount
    have hshort := hs.short
    have hsplit : bs ++ d :: ds = (bs ++ [d]) ++ ds := by simp
    rw [pushBytes_cons, pushByte_run d hs, hsplit, andThen_next]
    by_cases h : bs.length = 63
    · have h64 : (bs ++ [d]).length = 64 := by simp [h]
      rw [if_pos h, ih (bs := []) ⟨rfl, by simp only [List.length_nil]; omega⟩, foldBlocks_append _ _ h64]
      have e : 64 * ((bs ++ [d] ++ ds).length / 64) = (bs ++ [d]).length + 64 * (ds.length / 64) := by
        rw [List.length_append, h64]; omega
      rw [e, ← List.drop_drop, List.drop_left, List.nil_append, hlen]
      rfl
    · rw [if_neg h, ih (bs := bs ++ [d]) ⟨rfl, by simp only [List.length_append, List.length_singleton]; omega⟩, hlen]
      rfl

/-- The loop of R84 step 3 pushes (56 − LEN[5:0]) mod 64 zero bytes, so its fuel suffices. -/
theorem padZeros_eq_pushBytes {fuel : Nat} {s : State} (h : (120 - s.len.toNat % 64) % 64 ≤ fuel) :
    padZeros fuel s = pushBytes (List.replicate ((120 - s.len.toNat % 64) % 64) 0x00) s := by
  induction fuel generalizing s with
  | zero =>
    have e : (120 - s.len.toNat % 64) % 64 = 0 := by omega
    simp [padZeros, e]
  | succ fuel ih =>
    have hiff : writeOffset s = 56 ↔ _ := writeOffset_eq_iff s (n := 56) (by omega)
    unfold padZeros
    by_cases h56 : s.len.toNat % 64 = 56
    · rw [if_pos (hiff.2 h56), h56]
      rfl
    · rw [if_neg (mt hiff.1 h56)]
      have e : (120 - s.len.toNat % 64) % 64 = (120 - (s.len + 1).toNat % 64) % 64 + 1 := by
        rw [len_succ_mod]; omega
      rw [e, List.replicate_succ, pushBytes_cons]
      cases hp : pushByte 0x00 s with
      | next t =>
        rw [andThen_next, andThen_next, ← pushByte_len hp]
        exact ih (by rw [pushByte_len hp]; omega)
      | fault r => rfl
      | refused r => rfl

/-- The loop of R84 step 3 ends where its condition fails: LEN[5:0] = 56. -/
theorem padZeros_ends_at_56 {s t : State} (h : padZeros 63 s = .next t) : t.len.toNat % 64 = 56 := by
  rw [padZeros_eq_pushBytes (by omega)] at h
  rw [pushBytes_frame h]
  simp only [List.length_replicate, BitVec.toNat_add, BitVec.toNat_ofNat]
  omega

theorem bitLength_eq (l : BitVec 64) : bitLength l = BitVec.ofNat 64 (8 * l.toNat) := by
  rw [← BitVec.toNat_inj]
  simp [bitLength, Nat.shiftLeft_eq, Nat.mul_comm]

@[simp] theorem be64Bytes_length (v : BitVec 64) : (be64Bytes v).length = 8 := by simp [be64Bytes]

/-- The padding is 9 + z bytes long (R85). -/
theorem padding_length (n : Nat) : (padding n).length = 9 + paddingZeros n := by
  simp [padding]; omega

theorem paddingZeros_eq (n : Nat) : paddingZeros n = (119 - n % 64) % 64 := rfl

/-- Message and padding together fill whole blocks (R85). -/
theorem padded_length_mod (n : Nat) : (n + (padding n).length) % 64 = 0 := by
  rw [padding_length, paddingZeros_eq]; omega

/-- Everything the padding controller does: it pushes the padding of R87 byte by byte. -/
theorem padMessage_eq_pushBytes (s : State) : padMessage s = pushBytes (padding s.len.toNat) s := by
  unfold padMessage padding
  rw [pushBytes_cons]
  cases h : pushByte 0x80 s with
  | next t =>
    have hz : (120 - t.len.toNat % 64) % 64 = paddingZeros s.len.toNat := by
      rw [pushByte_len h, len_succ_mod, paddingZeros_eq]; omega
    rw [andThen_next, andThen_next, padZeros_eq_pushBytes (by omega), hz, bitLength_eq, pushBytes_append]
  | fault r => rfl
  | refused r => rfl

/-- FINISH's padding on a buffer that holds bs folds the padded blocks into H and empties BUF (R84, R87). -/
theorem padMessage_run {s : State} {bs : List Byte} (hs : Holds s bs) :
    padMessage s = .next { s with
      h := foldBlocks s.h (bs ++ padding s.len.toNat)
      buf := []
      len := s.len + BitVec.ofNat 64 (9 + paddingZeros s.len.toNat) } := by
  have hl : (bs ++ padding s.len.toNat).length % 64 = 0 := by
    have := padded_length_mod s.len.toNat
    rw [List.length_append, hs.count]; omega
  have hd : 64 * ((bs ++ padding s.len.toNat).length / 64) = (bs ++ padding s.len.toNat).length := by omega
  rw [padMessage_eq_pushBytes, pushBytes_run _ hs, hd, List.drop_length, padding_length]
  rfl

end Sys2Proof.Machine
end

