-- ==== Sys2Proof/Laws/Exec.lean ====
section
/-! SUPPORT. Everything each meaning can do, where it answers a next state. -/

namespace Sys2Proof.Machine

theorem serving_cases {s : State} (h : s.phase ≠ .faulted) : s.phase = .accumulating ∨ s.phase = .finalized := by
  cases hp : s.phase <;> simp_all

/-- INIT: the FAULTED answer, or a new context (R82). -/
theorem execInit_cases {s t : State} (h : execInit s = .next t) :
    (s.phase = .faulted ∧ t = respond .fault (causeData s.cause) s) ∨
    (s.phase ≠ .faulted ∧ t = respond .ack 0 (newContext s)) := by
  obtain h | ⟨hs, h⟩ := unlessFaulted_eq_next h
  · exact .inl h
  · exact .inr ⟨hs, by cases h; rfl⟩

/-- PUSH: the FAULTED answer, fault 2, fault 4, or a pushed byte (R83). -/
theorem execPush_cases {b : BitVec 8} {s t : State} (h : execPush b s = .next t) :
    (s.phase = .faulted ∧ t = respond .fault (causeData s.cause) s) ∨
    (s.phase = .finalized ∧ t = raiseFault .useAfterFinish s) ∨
    (s.phase = .accumulating ∧ maxMsgBytes ≤ s.len ∧ t = raiseFault .lengthOverflow s) ∨
    (s.phase = .accumulating ∧ ¬ maxMsgBytes ≤ s.len ∧ ∃ m, pushByte b s = .next m ∧ t = respond .ack 0 m) := by
  obtain h | ⟨hs, h⟩ := unlessFaulted_eq_next h
  · exact .inl h
  obtain hp | hp := serving_cases hs
  · rw [if_neg (by simp [hp])] at h
    split at h
    · exact .inr (.inr (.inl ⟨hp, ‹_›, by cases h; rfl⟩))
    · obtain ⟨m, hm, ht⟩ := andThen_eq_next.1 h
      exact .inr (.inr (.inr ⟨hp, ‹_›, m, hm, by cases ht; rfl⟩))
  · rw [if_pos hp] at h
    exact .inr (.inl ⟨hp, by cases h; rfl⟩)

/-- FINISH: the FAULTED answer, fault 2, or the padded message (R84). -/
theorem execFinish_cases {s t : State} (h : execFinish s = .next t) :
    (s.phase = .faulted ∧ t = respond .fault (causeData s.cause) s) ∨
    (s.phase = .finalized ∧ t = raiseFault .useAfterFinish s) ∨
    (s.phase = .accumulating ∧ ∃ m, pushBytes (padding s.len.toNat) s = .next m ∧
      t = respond .ack 0 { m with phase := .finalized }) := by
  obtain h | ⟨hs, h⟩ := unlessFaulted_eq_next h
  · exact .inl h
  obtain hp | hp := serving_cases hs
  · rw [if_neg (by simp [hp]), padMessage_eq_pushBytes] at h
    obtain ⟨m, hm, ht⟩ := andThen_eq_next.1 h
    exact .inr (.inr ⟨hp, m, hm, by cases ht; rfl⟩)
  · rw [if_pos hp] at h
    exact .inr (.inl ⟨hp, by cases h; rfl⟩)

/-- GET: the FAULTED answer, fault 3, a word or ABSENT (R130). -/
theorem execGet_cases {i : BitVec 8} {s t : State} (h : execGet i s = .next t) :
    (s.phase = .faulted ∧ t = respond .fault (causeData s.cause) s) ∨
    (s.phase = .accumulating ∧ t = raiseFault .notFinalized s) ∨
    (s.phase = .finalized ∧ ∃ x, wordAt s.h (indexOperand i) = some x ∧ t = respond .word x s) ∨
    (s.phase = .finalized ∧ wordAt s.h (indexOperand i) = none ∧ t = respond .absent 0 s) := by
  obtain h | ⟨hs, h⟩ := unlessFaulted_eq_next h
  · exact .inl h
  obtain hp | hp := serving_cases hs
  · rw [if_pos hp] at h
    exact .inr (.inl ⟨hp, by cases h; rfl⟩)
  · rw [if_neg (by simp [hp])] at h
    cases hw : wordAt s.h (indexOperand i) with
    | some x =>
      rw [hw] at h
      exact .inr (.inr (.inl ⟨hp, x, rfl, by cases h; rfl⟩))
    | none =>
      rw [hw] at h
      exact .inr (.inr (.inr ⟨hp, rfl, by cases h; rfl⟩))

/-- STAT: the status word (R131). -/
theorem execStat_cases {s t : State} (h : execStat s = .next t) :
    t = respond .word (statusWord s.cause s.phase) s := by
  cases h; rfl

/-- An illegal word: the FAULTED answer, or fault 1 (R65). -/
theorem rejectWord_cases {s t : State} (h : rejectWord s = .next t) :
    (s.phase = .faulted ∧ t = respond .fault (causeData s.cause) s) ∨
    (s.phase ≠ .faulted ∧ t = raiseFault .illegalCommand s) := by
  obtain h | ⟨hs, h⟩ := unlessFaulted_eq_next h
  · exact .inl h
  · exact .inr ⟨hs, by cases h; rfl⟩

end Sys2Proof.Machine
end

