-- ==== Sys2Proof/Laws/PerInstr.lean ====
section
/-! SUPPORT. Facts about each command as syntax, one lemma per constructor. -/

namespace Sys2Proof.Laws.FieldsLegal

/-- The command is well formed, and its word carries the three fields R63 gives it. -/
def Statement (i : Instr) : Prop := i.wf = true ∧ Fields.ofWord (encode i) = i.fields

theorem init : Statement .init := ⟨by decide, by decide⟩

theorem push (b : Byte) : Statement (.push b) := by
  refine ⟨?_, ?_⟩
  · simp [Instr.wf, Instr.fields, Fields.wf, Fields.opcodeKnown, Fields.reservedClear,
      Fields.operandAllowed, Fields.takesNoOperand]
  · simp only [Fields.ofWord, encode, Instr.fields, Fields.mk.injEq]
    revert b
    decide

theorem finish : Statement .finish := ⟨by decide, by decide⟩

theorem get (i : BitVec 8) : Statement (.get i) := by
  refine ⟨?_, ?_⟩
  · simp [Instr.wf, Instr.fields, Fields.wf, Fields.opcodeKnown, Fields.reservedClear,
      Fields.operandAllowed, Fields.takesNoOperand]
  · simp only [Fields.ofWord, encode, Instr.fields, Fields.mk.injEq]
    revert i
    decide

theorem stat : Statement .stat := ⟨by decide, by decide⟩

end Sys2Proof.Laws.FieldsLegal
end

