-- ==== Sys2Proof/Laws/Step.lean ====
section
/-! SUPPORT. Everything one clock edge and one step can do. -/

namespace Sys2Proof.Machine

/-- A clock edge is a reset, a refused handshake, an accepted word or a hold (R61, R158). -/
theorem clockEdge_cases (e : Edge) (s : State) :
    (e.rst = true ∧ clockEdge e s = .next (hardwareReset s)) ∨
    (e.rst = false ∧ breaksHandshake s e = true ∧ clockEdge e s = .refused .handshakeBroken) ∨
    (e.rst = false ∧ breaksHandshake s e = false ∧ acceptsAt s e = true ∧
      clockEdge e s = runWord e.cmdWord (acceptCommand e.cmdWord s)) ∨
    (e.rst = false ∧ breaksHandshake s e = false ∧ acceptsAt s e = false ∧
      clockEdge e s = .next (holdEdge e s)) := by
  unfold clockEdge
  cases e.rst <;> cases breaksHandshake s e <;> cases acceptsAt s e <;> simp

/-- A step without an edge keeps the state (R164). -/
theorem step_nil {s : State} (h : s.inputs = []) : step s = .next s := by simp [step, h]

/-- A step with an edge is that clock edge. -/
theorem step_cons {s : State} {e : Edge} {rest : List Edge} (h : s.inputs = e :: rest) :
    step s = clockEdge e { s with inputs := rest } := by simp [step, h]

theorem run_of_next {M : Host.Core} {s t : M.State} (k : Nat) (h : M.step s = .next t) :
    Host.Core.run M (k + 1) s = Host.Core.run M k t := by
  rw [Host.Core.run, h]

theorem run_of_fault {M : Host.Core} {s : M.State} {r : M.Fault} (k : Nat) (h : M.step s = .fault r) :
    Host.Core.run M (k + 1) s = .fault r := by
  rw [Host.Core.run, h]

theorem run_of_refused {M : Host.Core} {s : M.State} {r : M.Refusal} (k : Nat) (h : M.step s = .refused r) :
    Host.Core.run M (k + 1) s = .refused r := by
  rw [Host.Core.run, h]

/-- A run of the host's machine is a step followed by the rest of the run. -/
theorem core_run_succ (k : Nat) (s : State) :
    Host.Core.run Sys2Proof.core (k + 1) s = andThen (step s) (Host.Core.run Sys2Proof.core k) := by
  cases h : step s with
  | next t => exact run_of_next (M := Sys2Proof.core) k h
  | fault r => exact run_of_fault (M := Sys2Proof.core) k h
  | refused r => exact run_of_refused (M := Sys2Proof.core) k h

/-- A run of transactions is the first one followed by the rest (R53). -/
theorem transactAll_cons (w : CmdWord) (ws : List CmdWord) (s : State) :
    transactAll (w :: ws) s = andThen (transact w s) (transactAll ws) := rfl

theorem transactAll_append (vs ws : List CmdWord) (s : State) :
    transactAll (vs ++ ws) s = andThen (transactAll vs s) (transactAll ws) := by
  induction vs generalizing s with
  | nil => rfl
  | cons v vs ih =>
    simp only [List.cons_append, transactAll_cons, andThen_assoc]
    congr 1
    funext t
    exact ih t

/-- A handshake without a held offer cannot break (R189). -/
theorem breaksHandshake_none {s : State} (h : s.offer = none) (e : Edge) : breaksHandshake s e = false := by
  simp [breaksHandshake, h]

/-- Offering the held word again keeps the handshake (R189). -/
theorem breaksHandshake_same {s : State} {e : Edge} {w : CmdWord} (h : s.offer = some w)
    (hv : e.cmdValid = true) (hw : e.cmdWord = w) : breaksHandshake s e = false := by
  simp [breaksHandshake, h, hv, hw]

theorem runWord_instr {w : CmdWord} {i : Instr} (h : decode w = .instr i) (s : State) :
    runWord w s = exec i s := by simp [runWord, h]

theorem runWord_illegal {w : CmdWord} {why : IllegalWord} (h : decode w = .illegal why) (s : State) :
    runWord w s = rejectWord s := by simp [runWord, h]

/-- Everything an accepted word can do, where it answers a next state (R80): the FAULTED answer, INIT, a
fault, PUSH, FINISH, or a response that changes nothing else. -/
theorem runWord_cases {w : CmdWord} {s t : State} (h : runWord w s = .next t) :
    (s.phase = .faulted ∧ t = respond .fault (causeData s.cause) s) ∨
    (s.phase ≠ .faulted ∧ decode w = .instr .init ∧ t = respond .ack 0 (newContext s)) ∨
    (s.phase ≠ .faulted ∧ ∃ c, t = raiseFault c s) ∨
    (s.phase = .accumulating ∧ ¬ maxMsgBytes ≤ s.len ∧
      ∃ b m, decode w = .instr (.push b) ∧ pushByte b s = .next m ∧ t = respond .ack 0 m) ∨
    (s.phase = .accumulating ∧ ∃ m, decode w = .instr .finish ∧ pushBytes (padding s.len.toNat) s = .next m ∧
      t = respond .ack 0 { m with phase := .finalized }) ∨
    (∃ k x, (k = .word ∨ (k = .absent ∧ x = 0)) ∧ t = respond k x s) := by
  unfold runWord at h
  split at h
  · rename_i i hi
    cases i with
    | init =>
      obtain h | ⟨hs, h⟩ := execInit_cases h
      · exact .inl h
      · exact .inr (.inl ⟨hs, hi, h⟩)
    | push b =>
      obtain h | ⟨hp, h⟩ | ⟨hp, -, h⟩ | ⟨hp, hl, m, hm, h⟩ := execPush_cases h
      · exact .inl h
      · exact .inr (.inr (.inl ⟨by simp [hp], _, h⟩))
      · exact .inr (.inr (.inl ⟨by simp [hp], _, h⟩))
      · exact .inr (.inr (.inr (.inl ⟨hp, hl, b, m, hi, hm, h⟩)))
    | finish =>
      obtain h | ⟨hp, h⟩ | ⟨hp, m, hm, h⟩ := execFinish_cases h
      · exact .inl h
      · exact .inr (.inr (.inl ⟨by simp [hp], _, h⟩))
      · exact .inr (.inr (.inr (.inr (.inl ⟨hp, m, hi, hm, h⟩))))
    | get j =>
      obtain h | ⟨hp, h⟩ | ⟨-, x, -, h⟩ | ⟨-, -, h⟩ := execGet_cases h
      · exact .inl h
      · exact .inr (.inr (.inl ⟨by simp [hp], _, h⟩))
      · exact .inr (.inr (.inr (.inr (.inr ⟨_, x, .inl rfl, h⟩))))
      · exact .inr (.inr (.inr (.inr (.inr ⟨_, 0, .inr ⟨rfl, rfl⟩, h⟩))))
    | stat => exact .inr (.inr (.inr (.inr (.inr ⟨_, _, .inl rfl, execStat_cases h⟩))))
  · obtain h | ⟨hs, h⟩ := rejectWord_cases h
    · exact .inl h
    · exact .inr (.inr (.inl ⟨hs, _, h⟩))

/-- A hold leaves the engine's own state, the counter and the inputs alone (R61, R164). -/
theorem holdEdge_frame (e : Edge) (s : State) :
    holdEdge e s = { s with
      rsp := (holdEdge e s).rsp, wait := s.wait - 1
      offer := if e.cmdValid then some e.cmdWord else none
      delivered := (holdEdge e s).delivered } := by
  cases h : deliversAt s e <;> simp [holdEdge, h, passEdge, deliver]

end Sys2Proof.Machine
end

