-- ==== Sys2Proof/Tests/Slice0.lean ====
section
/-! SUPPORT. Tests whose expected results are those of spec/95_test_vectors.md or worked by hand from the
rules, and for each statement with hypotheses a state and operands that meet them. -/

namespace Sys2Proof.Tests

open Sys2Proof Sys2Proof.Machine

/-! ## Helpers -/

/-- The state after the bytes bs (fewer than 64) were pushed from reset. -/
def holding (bs : List Byte) : State :=
  { State.reset with buf := cellsFrom 0 bs, len := BitVec.ofNat 64 bs.length }

/-- "abc" pushed from reset. -/
def abc : State := holding [0x61, 0x62, 0x63]

/-- 63 bytes 0x61 pushed from reset. -/
def full63 : State := holding (List.replicate 63 0x61)

/-- The digest of "abc" (95_test_vectors.md 1.1). -/
def abcDigest : Words8 :=
  ⟨0xba7816bf, 0x8f01cfea, 0x414140de, 0x5dae2223, 0xb00361a3, 0x96177a9c, 0xb410ff61, 0xf20015ad⟩

/-- The digest of the empty message (95_test_vectors.md 1.1). -/
def emptyDigest : Words8 :=
  ⟨0xe3b0c442, 0x98fc1c14, 0x9afbf4c8, 0x996fb924, 0x27ae41e4, 0x649b934c, 0xa495991b, 0x7852b855⟩

/-- H after 64 bytes 0x61 (95_test_vectors.md 3.3). -/
def afterSixtyFour : Words8 :=
  ⟨0xdf5bb81c, 0xe81e0626, 0xfb45a894, 0x4fd40f31, 0xb25e6816, 0xd6d499c1, 0xab904929, 0x00635e66⟩

/-- FINALIZED with the digest of "abc". -/
def finished : State := { State.reset with h := abcDigest, len := 64, phase := .finalized }

/-- FAULTED by a GET before FINISH. -/
def broken : State := { State.reset with phase := .faulted, cause := 3 }

/-- ACCUMULATING with the longest message, its last 63 bytes zero. -/
def atLimit : State :=
  { State.reset with buf := cellsFrom 0 (List.replicate 63 0x00), len := 0x1fffffffffffffff }

/-- An edge at which the host drives nothing. -/
def idleEdge : Edge := { rst := false, cmdValid := false, cmdWord := 0, rspReady := false }

/-- An edge with `rst` high. -/
def rstEdge : Edge := { idleEdge with rst := true }

/-- An edge that takes a response. -/
def takeEdge : Edge := { idleEdge with rspReady := true }

/-- STAT's response outstanding and ready. -/
def answered : State := { State.reset with rsp := some ⟨.word, 0⟩, inputs := [takeEdge] }

/-- The outcome is a next state that p holds of. -/
def leads (o : Host.Outcome State Fault Refusal) (p : State → Bool) : Bool :=
  match o with
  | .next t => p t
  | .fault _ => false
  | .refused _ => false

/-! ## Well-formedness: an ill-formed term for each check -/

theorem test_wf_accepts_push : (Fields.ofWord 0x2061).wf = true := by decide

theorem test_wf_refuses_unknown_opcode : (Fields.ofWord 0x6000).opcodeKnown = false ∧ (Fields.ofWord 0x6000).wf = false := by
  decide

theorem test_wf_refuses_zero_word : (Fields.ofWord 0x0000).wf = false := by decide

theorem test_wf_refuses_reserved_bits : (Fields.ofWord 0x2100).reservedClear = false ∧ (Fields.ofWord 0x2100).wf = false := by
  decide

theorem test_wf_refuses_operand : (Fields.ofWord 0x1001).operandAllowed = false ∧ (Fields.ofWord 0x1001).wf = false := by
  decide

theorem test_wf_refuses_wide_operands :
    AsmLine.wf (.push 256) = false ∧ AsmLine.wf (.get 256) = false ∧ AsmLine.wf (.rawWord 65536) = false ∧
    AsmLine.wf (.pushAll [0, 256]) = false ∧ AsmLine.wf (.hash [256]) = false := by decide

/-! ## Decoding: words written out bit by bit from the encodings of R63 -/

theorem test_decode_init : decode 0b0001000000000000 = .instr .init := by decide

theorem test_decode_push : decode 0b0010000010000000 = .instr (.push 0x80) := by decide

theorem test_decode_finish : decode 0b0011000000000000 = .instr .finish := by decide

theorem test_decode_get : decode 0b0100000011111111 = .instr (.get 255) := by decide

theorem test_decode_stat : decode 0b0101000000000000 = .instr .stat := by decide

/-- 95_test_vectors.md 6. -/
theorem test_decode_illegal :
    [0x0000, 0x1001, 0x10FF, 0x1100, 0x2100, 0x2F61, 0x3080, 0x4F00, 0x5001, 0x5100, 0x6000, 0x7FFF, 0x8000,
      0xF000, 0xFFFF].all (fun w : CmdWord => match decode w with
        | .instr _ => false
        | .illegal _ => true) = true := by decide

theorem test_table_word : decodeTableWord 16 0x2061 = some (.push 0x61) ∧ decodeTableWord 16 0x0000 = none ∧
    decodeTableWord 17 0x12061 = none := by decide

/-! ## The compression engine (95_test_vectors.md 2 and 3) -/

theorem test_rotr : rotr 0x12345678 8 = 0x78123456 ∧ rotr 0x80000000 31 = 0x00000001 := by decide

theorem test_shr : shr 0xffffffff 10 = 0x003fffff ∧ shr 0x12345678 3 = 0x02468acf := by decide

theorem test_ch : ch 0x510e527f 0x9b05688c 0x1f83d9ab = 0x1f85c98c := by decide

theorem test_maj : maj 0x6a09e667 0xbb67ae85 0x3c6ef372 = 0x3a6fe667 := by decide

theorem test_sigmas : bsig0 0x510e527f = 0x7ef0e1a9 ∧ bsig1 0x510e527f = 0x3587272b ∧
    ssig0 0x510e527f = 0x601c02a8 ∧ ssig1 0x510e527f = 0xe3640132 := by decide

theorem test_sigmas_ones : bsig0 0xffffffff = 0xffffffff ∧ bsig1 0xffffffff = 0xffffffff ∧
    ssig0 0xffffffff = 0x1fffffff ∧ ssig1 0xffffffff = 0x003fffff := by decide

/-- The "abc" block of 95_test_vectors.md 3.2: schedule words 16, 19 and 63. -/
theorem test_schedule :
    let w := schedule (joinBytes ([0x61, 0x62, 0x63, 0x80] ++ List.replicate 59 0x00 ++ [0x18]))
    w.getD 0 0 = 0x61626380 ∧ w.getD 15 0 = 0x18 ∧ w.getD 16 0 = 0x61626380 ∧ w.getD 19 0 = 0x600003c6 ∧
    w.getD 63 0 = 0x12b1edeb := by decide +kernel

/-- Iteration 0 of 95_test_vectors.md 3.2. -/
theorem test_iteration : mix (roundConstant 0) 0x61626380 ivRom =
    ⟨0x5d6aebcd, 0x6a09e667, 0xbb67ae85, 0x3c6ef372, 0xfa2a4622, 0x510e527f, 0x9b05688c, 0x1f83d9ab⟩ := by
  decide +kernel

/-- 95_test_vectors.md 3.3, third row. -/
theorem test_compress : compress afterSixtyFour (joinBytes (List.replicate 64 0x61)) =
    ⟨0xeac1afff, 0x7e2fe374, 0x5215a157, 0x6aea3c45, 0x1df0539e, 0x97f91d40, 0xf96170a7, 0x5b4dc721⟩ := by
  decide +kernel

/-! ## The commands, one step each -/

/-- 95_test_vectors.md 4.5. -/
theorem test_init : leads (exec .init finished) (fun t =>
    t.h == ivRom && t.len == 0 && t.phase == .accumulating && t.rsp == some ⟨.ack, 0⟩) = true := by decide

/-- 95_test_vectors.md 4.5: INIT does not leave FAULTED. -/
theorem test_init_faulted : leads (exec .init { broken with cause := 2 }) (fun t =>
    t.phase == .faulted && t.rsp == some ⟨.fault, 2⟩) = true := by decide

/-- 95_test_vectors.md 4.3, fourth row: the 64th byte runs one compression. -/
theorem test_push_completes_block : leads (exec (.push 0x61) full63) (fun t =>
    t.h == afterSixtyFour && t.len == 64 && t.buf == []) = true := by decide +kernel

/-- 95_test_vectors.md 4.3, sixth row. -/
theorem test_push_at_limit : leads (exec (.push 0x61) atLimit) (fun t =>
    t.phase == .faulted && t.cause == 4 && t.len == 0x1fffffffffffffff && t.rsp == some ⟨.fault, 4⟩) = true := by
  decide

/-- 95_test_vectors.md 1.1: the digest of "abc". -/
theorem test_finish_abc : leads (exec .finish abc) (fun t =>
    t.h == abcDigest && t.len == 64 && t.phase == .finalized && t.buf == []) = true := by decide +kernel

/-- 95_test_vectors.md 4.1, n = 56 (R85): two compressions, LEN 128. -/
theorem test_finish_two_blocks : leads (exec .finish (holding (List.replicate 56 0x61))) (fun t =>
    t.h == ⟨0xb35439a4, 0xac6f0948, 0xb6d6f9e3, 0xc6af0f5f, 0x590ce20f, 0x1bde7090, 0xef797068, 0x6ec6738a⟩ &&
    t.len == 128) = true := by decide +kernel

/-- 95_test_vectors.md 5. -/
theorem test_get : leads (exec (.get 7) finished) (fun t => t.rsp == some ⟨.word, 0xf20015ad⟩) = true ∧
    leads (exec (.get 8) finished) (fun t => t.rsp == some ⟨.absent, 0⟩) = true := by decide

/-- 95_test_vectors.md 5: the phase check comes before the index check. -/
theorem test_get_early : leads (exec (.get 8) abc) (fun t =>
    t.rsp == some ⟨.fault, 3⟩ && t.cause == 3) = true := by decide

/-- 95_test_vectors.md 5. -/
theorem test_stat : leads (exec .stat broken) (fun t => t.rsp == some ⟨.word, 0x32⟩) = true ∧
    leads (exec .stat finished) (fun t => t.rsp == some ⟨.word, 0x01⟩) = true := by decide

/-- 95_test_vectors.md 7: the illegal word comes before the phase check; no second fault in FAULTED. -/
theorem test_priority : leads (runWord 0x2100 finished) (fun t => t.rsp == some ⟨.fault, 1⟩) = true ∧
    leads (runWord 0x0000 broken) (fun t => t.rsp == some ⟨.fault, 3⟩ && t.cause == 3) = true := by decide

/-- The step fetches the offered word: FINISH as the first command after reset (program P1). -/
theorem test_step_finish : leads (step (State.reset.withFetchWord 16 0x3000)) (fun t =>
    t.h == emptyDigest && t.rsp == some ⟨.ack, 0⟩ && t.inputs == []) = true := by decide +kernel

/-- 95_test_vectors.md 8: reset leaves FAULTED. -/
theorem test_step_reset : leads (step { broken with inputs := [rstEdge] }) (fun t => t == State.reset) = true := by
  decide

/-- A response is delivered where `rsp_valid` and `rsp_ready` both hold (R61). -/
theorem test_step_deliver : leads (step answered) (fun t =>
    t.rsp == none && t.delivered == [⟨.word, 0⟩]) = true := by decide

/-- The codes on `rsp_kind` (R67). -/
theorem test_rsp_kind :
    [RspKind.ack, .word, .absent, .fault].map (fun k =>
      rspKindSignal { answered with rsp := some ⟨k, 7⟩ } takeEdge) = [some 0, some 1, some 2, some 3] ∧
    rspDataSignal { answered with rsp := some ⟨.word, 7⟩ } takeEdge = some 7 := by decide

/-! ## The assembler and the host's functions -/

/-- R68, R69: `HASH "a"` in mixed case, with a comment. -/
theorem test_assemble_hash : assembleText ['H', 'a', 's', 'h', ' ', '"', 'a', '"', ' ', ';', 'x'] =
    some [0x1000, 0x2061, 0x3000, 0x4000, 0x4001, 0x4002, 0x4003, 0x4004, 0x4005, 0x4006, 0x4007] := by
  decide +kernel

/-- R68: hex, decimal and character operands, a raw word, and an operand out of range. -/
theorem test_assemble_operands :
    assembleText ['P', 'U', 'S', 'H', ' ', '0', 'x', '8', '0'] = some [0x2080] ∧
    assembleText ['P', 'U', 'S', 'H', ' ', '\'', ';', '\''] = some [0x203b] ∧
    assembleText ['G', 'E', 'T', ' ', '2', '5', '5'] = some [0x40ff] ∧
    assembleText ['G', 'E', 'T', ' ', '2', '5', '6'] = none ∧
    assembleText ['.', 'w', 'o', 'r', 'd', ' ', '0', 'x', '1', '0', '0', '1'] = some [0x1001] := by
  decide +kernel

/-- R69: escapes and byte lists. -/
theorem test_assemble_push_all :
    assembleText ['P', 'U', 'S', 'H', '_', 'A', 'L', 'L', ' ', '"', '\\', 'r', '\\', 'n', '\\', '"', '"'] =
      some [0x200d, 0x200a, 0x2022] ∧
    assembleText ['p', 'u', 's', 'h', '_', 'a', 'l', 'l', ' ', '1', ',', ' ', '0', 'x', 'f', 'F'] =
      some [0x2001, 0x20ff] ∧
    assembleText ['p', 'u', 's', 'h', '_', 'a', 'l', 'l'] = some [] := by decide +kernel

/-- R133: zero-padded, most significant digit first. -/
theorem test_hex_word : hexWord 0x0275bf3f = ['0', '2', '7', '5', 'b', 'f', '3', 'f'] := by decide +kernel

theorem test_host_get : hostGet 255 = some (.get 255) ∧ hostGet 256 = none := by decide

/-! ## Every statement's hypotheses are met by something -/

theorem abc_inv : abc.Inv where
  bufCanonical := by decide
  causeClear _ := rfl
  causeSet h := by cases h
  messageFits _ := by decide
  bufHolds _ := by decide
  digestHeld h := by cases h
  lenBounded := by decide

theorem full63_inv : full63.Inv where
  bufCanonical := by decide +kernel
  causeClear _ := rfl
  causeSet h := by cases h
  messageFits _ := by decide
  bufHolds _ := by decide +kernel
  digestHeld h := by cases h
  lenBounded := by decide

theorem atLimit_inv : atLimit.Inv where
  bufCanonical := by decide +kernel
  causeClear _ := rfl
  causeSet h := by cases h
  messageFits _ := by decide
  bufHolds _ := by decide +kernel
  digestHeld h := by cases h
  lenBounded := by decide

theorem finished_inv : finished.Inv where
  bufCanonical := by decide
  causeClear _ := rfl
  causeSet h := by cases h
  messageFits h := by cases h
  bufHolds h := by cases h
  digestHeld _ := by decide
  lenBounded := by decide

theorem broken_inv : broken.Inv where
  bufCanonical := by decide
  causeClear h := absurd rfl h
  causeSet _ := by decide
  messageFits h := by cases h
  bufHolds h := by cases h
  digestHeld h := by cases h
  lenBounded := by decide

theorem reset_inv : State.reset.Inv where
  bufCanonical := by decide
  causeClear _ := rfl
  causeSet h := by cases h
  messageFits _ := by decide
  bufHolds _ := by decide
  digestHeld h := by cases h
  lenBounded := by decide

theorem witness_DecodeEncodeAgree : decode 0x20ff = .instr (.push 0xff) := by decide

theorem witness_IllegalWordsFault : (∃ why, decode 0x0000 = .illegal why) ∧ (∃ why, decode 0x0100 = .illegal why) ∧
    (∃ why, decode 0x5001 = .illegal why) ∧ (∃ why, decode 0xffff = .illegal why) ∧
    broken.phase = .faulted ∧ abc.phase ≠ .faulted := by
  refine ⟨⟨.reservedOpcode, by decide⟩, ⟨.reservedBitsSet, by decide⟩, ⟨.operandNotZero, by decide⟩,
    ⟨.reservedBitsSet, by decide⟩, by decide, by decide⟩

theorem witness_StepRunsDecodedCommand :
    let s := { State.reset with offer := some 0x2061, inputs := [offerEdge 0x2061] }
    s.rsp = none ∧ (s.offer = none ∨ s.offer = some 0x2061) ∧
    s.inputs = [{ rst := false, cmdValid := true, cmdWord := 0x2061, rspReady := false }] ∧
    decode 0x2061 = .instr (.push 0x61) ∧ decode 0x2161 = .illegal .reservedBitsSet := by
  refine ⟨rfl, .inr rfl, rfl, by decide, by decide⟩

theorem witness_IdleEngineKeepsState : abc.inputs = [] ∧
    ({ abc with inputs := [idleEdge] } : State).inputs = [idleEdge] ∧ idleEdge.rst = false ∧
    idleEdge.cmdValid = false ∧ abc.rsp = none ∧ abc.offer = none := by decide

theorem witness_ResetTakesResetState :
    ({ broken with inputs := [rstEdge] } : State).inputs = [rstEdge] ∧ rstEdge.rst = true := by decide

theorem witness_OutstandingResponseHoldsPort : answered.inputs = [takeEdge] ∧
    answered.rsp = some ⟨.word, 0⟩ ∧ takeEdge.rst = false ∧ breaksHandshake answered takeEdge = false ∧
    answered.wait = 0 ∧ takeEdge.rspReady = true ∧ idleEdge.rspReady = false := by decide

theorem witness_BrokenHandshakeRefused :
    let s := { answered with offer := some 0x1000, inputs := [offerEdge 0x1001] }
    step s = .refused .handshakeBroken ∧ s.offer = some 0x1000 ∧
    ¬((offerEdge 0x1001).cmdValid = true ∧ (offerEdge 0x1001).cmdWord = 0x1000) := by
  refine ⟨rfl, rfl, by decide⟩

theorem witness_OneResponsePerCommand : ∃ t, runWord 0x5000 abc = .next t := ⟨_, rfl⟩

theorem witness_PortRunIsTransaction :
    let es := List.replicate (latencyOf 0x5000 State.reset) idleEdge
    let s := { State.reset with inputs := offerEdge 0x5000 :: (es ++ [takeEdge]) }
    s.rsp = none ∧ (s.offer = none ∨ s.offer = some 0x5000) ∧ es.length = latencyOf 0x5000 s ∧
    (∀ e ∈ es, e.rst = false ∧ e.cmdValid = false) ∧ takeEdge.rst = false ∧ takeEdge.cmdValid = false ∧
    takeEdge.rspReady = true := by
  refine ⟨rfl, .inl rfl, List.length_replicate, fun e he => ?_, rfl, rfl, rfl⟩
  rw [List.eq_of_mem_replicate he]
  exact ⟨rfl, rfl⟩

theorem witness_InitStartsNewContext : finished.phase ≠ .faulted ∧ abc.phase ≠ .faulted ∧ broken.phase = .faulted ∧
    (0x1001 : CmdWord) &&& 0xF000 = 0x1000 ∧ (0x1001 : CmdWord) ≠ 0x1000 ∧
    (∃ t, exec .init finished = .next t) ∧ (0x3000 : CmdWord) ∉ [(0x2061 : CmdWord), 0x5000] ∧
    ∃ t, transactAll [0x1000, 0x2061, 0x5000] finished = .next t := by
  refine ⟨by decide, by decide, by decide, by decide, by decide, ⟨_, rfl⟩, by decide, ⟨_, rfl⟩⟩

theorem witness_StatReadsStatusWord : (0x5F00 : CmdWord) &&& 0xF000 = 0x5000 ∧ (0x5F00 : CmdWord) ≠ 0x5000 ∧
    broken.phase = .faulted := by decide

/-- A state for each clause of the statement, at its boundary values. -/
theorem witness_PushAppendsOneByte :
    (broken.Inv ∧ broken.phase = .faulted) ∧ (finished.Inv ∧ finished.phase = .finalized) ∧
    (atLimit.Inv ∧ atLimit.phase = .accumulating ∧ 2 ^ 61 - 1 ≤ atLimit.len.toNat) ∧
    (full63.Inv ∧ full63.phase = .accumulating ∧ full63.len.toNat % 64 = 63) ∧
    (abc.Inv ∧ abc.phase = .accumulating ∧ abc.len.toNat % 64 ≠ 63) :=
  ⟨⟨broken_inv, rfl⟩, ⟨finished_inv, rfl⟩, ⟨atLimit_inv, rfl, by decide⟩, ⟨full63_inv, rfl, by decide⟩,
    ⟨abc_inv, rfl, by decide⟩⟩

theorem witness_FinishCompressesPaddedBlocks : (abc.Inv ∧ abc.phase = .accumulating) ∧
    (atLimit.Inv ∧ atLimit.phase = .accumulating) := ⟨⟨abc_inv, rfl⟩, ⟨atLimit_inv, rfl⟩⟩

/-- A state and an index for each clause of GetReadsDigestWord, at the boundary of the index. -/
theorem witness_GetReadsDigestWord : broken.phase = .faulted ∧ abc.phase = .accumulating ∧
    finished.phase = .finalized ∧ (7 : BitVec 8).toNat < 8 ∧ 8 ≤ (8 : BitVec 8).toNat := by decide

theorem witness_StatReturnsOneOfSixWords : broken.Inv ∧ ∃ t, exec .stat broken = .next t :=
  ⟨broken_inv, _, rfl⟩

theorem witness_ContextCommandsFrame :
    (∃ t, exec .init abc = .next t ∧ t.rsp = some ⟨.ack, 0⟩) ∧
    leads (exec .finish abc) (fun t => t.rsp == some ⟨.ack, 0⟩) = true ∧
    (∃ t, exec .finish finished = .next t ∧ t.rsp ≠ some ⟨.ack, 0⟩) ∧
    (∃ t, exec .init broken = .next t ∧ t.rsp ≠ some ⟨.ack, 0⟩) := by
  refine ⟨⟨_, rfl, by decide⟩, by decide +kernel, ⟨_, rfl, by decide⟩, ⟨_, rfl, by decide⟩⟩

theorem witness_PushFrame :
    (∃ t, exec (.push 0x64) abc = .next t ∧ t.rsp = some ⟨.ack, 0⟩ ∧ (writeOffset abc).toNat ≠ 63) ∧
    leads (exec (.push 0x64) full63) (fun t => t.rsp == some ⟨.ack, 0⟩) = true ∧
    (writeOffset full63).toNat = 63 ∧
    (∃ t, exec (.push 0x64) finished = .next t ∧ t.rsp ≠ some ⟨.ack, 0⟩) ∧
    (∃ t, exec (.push 0x64) broken = .next t ∧ t.rsp ≠ some ⟨.ack, 0⟩) := by
  refine ⟨⟨_, rfl, by decide, by decide⟩, by decide +kernel, by decide, ⟨_, rfl, by decide⟩, ⟨_, rfl, by decide⟩⟩

theorem witness_ReadoutFrame : (∃ t, exec (.get 0) finished = .next t) ∧ (∃ t, exec (.get 0) abc = .next t) ∧
    ∃ t, exec .stat abc = .next t := ⟨⟨_, rfl⟩, ⟨_, rfl⟩, ⟨_, rfl⟩⟩

theorem witness_FaultsArePrecise : abc.phase ≠ .faulted ∧ ∃ t, runWord 0x4000 abc = .next t ∧ t.phase = .faulted :=
  ⟨by decide, _, rfl, rfl⟩

theorem witness_FaultedIsSticky : broken.phase = .faulted := rfl

theorem witness_OnlyResetLeavesFaulted :
    let s := { broken with inputs := [rstEdge] }
    s.phase = .faulted ∧ (∃ t, step s = .next t ∧ t.phase ≠ .faulted) ∧ s.inputs = [rstEdge] ∧ rstEdge.rst = true :=
  ⟨rfl, ⟨_, rfl, by decide⟩, rfl, rfl⟩

/-- A state and a word for each clause of FaultChecksInOrder, at the boundary of the length check. -/
theorem witness_FaultChecksInOrder :
    (broken.phase = .faulted ∧ (0x5001 : CmdWord) ≠ 0x5000 ∧ decode 0x5000 = .instr .stat) ∧
    (finished.phase ≠ .faulted ∧ ∃ why, decode 0x2100 = .illegal why) ∧
    (finished.phase = .finalized ∧ (∃ b, decode 0x2061 = .instr (.push b)) ∧ decode 0x3000 = .instr .finish) ∧
    (abc.phase = .accumulating ∧ ∃ i, decode 0x4008 = .instr (.get i)) ∧
    (atLimit.phase = .accumulating ∧ 2 ^ 61 - 1 ≤ atLimit.len.toNat) := by
  refine ⟨⟨rfl, by decide, by decide⟩, ⟨by decide, .reservedBitsSet, by decide⟩, ⟨rfl, ⟨0x61, by decide⟩, by decide⟩,
    ⟨rfl, 8, by decide⟩, rfl, by decide⟩

theorem witness_PhaseAndCauseWriters :
    (∃ t, runWord 0x1000 finished = .next t ∧ t.phase ≠ finished.phase) ∧
    (∃ t, runWord 0x4000 abc = .next t ∧ t.cause ≠ abc.cause) ∧
    leads (runWord 0x3000 abc) (fun t => t.phase != abc.phase) = true := by
  refine ⟨⟨_, rfl, by decide⟩, ⟨_, rfl, by decide⟩, by decide +kernel⟩

theorem witness_DigestStaysUntilInitOrReset :
    let s := { finished with inputs := [offerEdge 0x4000] }
    s.phase = .finalized ∧ ∃ t, step s = .next t := ⟨rfl, _, rfl⟩

theorem witness_StepKeepsInvariant : finished.Inv ∧ ∃ t, step finished = .next t := ⟨finished_inv, _, rfl⟩

theorem witness_EveryStepAnswers : full63.Inv ∧ full63.hostSteady :=
  ⟨full63_inv, fun e he => by cases he⟩

theorem witness_StepKeepsBufferCanonical : Memory.wf abc.buf ∧ ∃ t, step abc = .next t := ⟨abc_inv.bufCanonical, _, rfl⟩

theorem witness_ResponsesStayWellFormed : broken.Inv ∧ broken.responsesWf = true ∧ ∃ t, step broken = .next t :=
  ⟨broken_inv, by decide, _, rfl⟩

theorem witness_StreamedDigestIsMerkleDamgard : ([0x61, 0x62, 0x63] : List Byte).length ≤ 2 ^ 61 - 1 ∧
    finished.phase ≠ .faulted := by decide

/-- Both starts: reset, and INIT in a finalized engine. -/
theorem witness_PushesFoldWholeBlocks : (List.replicate 64 (0x61 : Byte)).length ≤ 2 ^ 61 - 1 ∧
    (([] : List CmdWord) = [] ∧ State.reset = State.reset) ∧
    ([(0x1000 : CmdWord)] = [0x1000] ∧ finished.phase ≠ .faulted) := by
  refine ⟨by decide, ⟨rfl, rfl⟩, rfl, by decide⟩

theorem witness_ChunkingDoesNotMatter : ([[0x61, 0x62], [], [0x63]] : List (List Byte)).flatten.length ≤ 2 ^ 61 - 1 ∧
    State.reset.phase ≠ .faulted := by decide

/-- Lengths on both sides of the one-block boundary. -/
theorem witness_PaddingLayout : (List.replicate 55 (0 : Byte)).length = 55 % 64 ∧
    (List.replicate 56 (0 : Byte)).length = 56 % 64 ∧ (List.replicate 63 (0 : Byte)).length = 127 % 64 ∧
    ([] : List Byte).length = 64 % 64 := by decide

theorem witness_ReadDigestDeliversWords : finished.phase = .finalized := rfl

/-- Both starts; a PUSH between FINISH and the next INIT does not conform (log entry 13). -/
theorem witness_ConformingUseNeverFaults :
    conforms false 0 [.stat, .push 0x61, .finish, .get 8, .init, .finish] = true ∧
    (([] : List CmdWord) = [] ∧ State.reset = State.reset) ∧
    ([(0x1000 : CmdWord)] = [0x1000] ∧ finished.phase ≠ .faulted) ∧
    conforms false 0 [.finish, .push 0x61] = false := by
  refine ⟨by decide, ⟨rfl, rfl⟩, ⟨rfl, by decide⟩, by decide⟩

theorem witness_RotationAndShiftBits : (31 : Nat) < 32 ∧ (1 : Nat) ≤ 1 ∧ (31 : Nat) ≤ 31 := by decide

theorem witness_ChooseAndMajorityBits : (31 : Nat) < 32 := by decide

theorem witness_SigmaBits : (0 : Nat) < 32 ∧ (31 : Nat) < 32 := by decide

theorem witness_ScheduleFollowsRecurrence : (15 : Nat) < 16 ∧ (16 : Nat) ≤ 16 ∧ (63 : Nat) < 64 := by decide

/-- The working variables of iterations 0 to t. -/
def workingVars (hin : Words8) (blk : Block) (t : Nat) : Words8 :=
  (List.range t).foldl (iterate (schedule blk)) hin

theorem witness_CompressIsSixtyFourIterations (hin : Words8) (blk : Block) :
    workingVars hin blk 0 = hin ∧
    ∀ t < 64,
      let a := workingVars hin blk t
      let t1 := a.w7 + bsig1 a.w4 + ch a.w4 a.w5 a.w6 + kRom.getD t 0 + (schedule blk).getD t 0
      let t2 := bsig0 a.w0 + maj a.w0 a.w1 a.w2
      workingVars hin blk (t + 1) = ⟨t1 + t2, a.w0, a.w1, a.w2, a.w3 + t1, a.w4, a.w5, a.w6⟩ := by
  refine ⟨rfl, fun t _ => ?_⟩
  simp only [workingVars, List.range_succ, List.foldl_append, List.foldl_cons, List.foldl_nil]
  rfl

theorem witness_BlockParsedBigEndian :
    readBlock (cellsFrom 0 (List.replicate 64 0x61)) = some (joinBytes (List.replicate 64 0x61)) ∧ (15 : Nat) < 16 :=
  ⟨readBlock_cellsFrom (by decide), by decide⟩

theorem witness_LengthFieldBigEndian : (List.replicate 56 (0 : Byte)).length = 56 ∧ (7 : Nat) < 8 := by decide

theorem witness_EnginesDoNotInterfere :
    ∃ t : Engines 2, stepEngine 0 (Vector.replicate 2 abc) = .next t ∧ (1 : Fin 2) ≠ 0 := ⟨_, rfl, by decide⟩

theorem witness_EngineStepsCommute : (0 : Fin 2) ≠ 1 ∧
    (∃ a : Engines 2, stepEngine 0 (Vector.replicate 2 abc) = .next a) ∧
    ∃ b : Engines 2, stepEngine 1 (Vector.replicate 2 abc) = .next b := ⟨by decide, ⟨_, rfl⟩, ⟨_, rfl⟩⟩

theorem witness_AssembledWordsAreLegal : assemble (.pushAll [0, 255]) = some [0x2000, 0x20ff] ∧
    (∀ w, AsmLine.pushAll [0, 255] ≠ .rawWord w) ∧ 255 < 256 ∧ 255 ≤ 255 ∧
    (∀ b ∈ [0, 255], b ≤ 255) ∧ (∃ n ∈ [0, 256], 255 < n) ∧ 65535 ≤ 65535 ∧ 65535 < 65536 := by
  refine ⟨by decide, by simp, by decide, by decide, by decide, by decide, by decide, by decide⟩

/-- A response of each kind on the port, and none while its wait lasts or `rst` is high. -/
theorem witness_ResponseSignalsCarryCodes :
    (∀ k : RspKind, rspValid { answered with rsp := some ⟨k, 5⟩ } takeEdge = true) ∧
    rspValid { answered with wait := 1 } takeEdge = false ∧ rspValid answered rstEdge = false ∧
    rspValid abc takeEdge = false := by
  refine ⟨fun k => rfl, by decide, by decide, by decide⟩

theorem witness_EnginesStartInResetState : 0 < Config.nEngines ∧
    ∃ t : Engines 2, stepEngine 0 (Vector.replicate 2 abc) = .next t := ⟨Nat.succ_pos _, _, rfl⟩

end Sys2Proof.Tests
end

section
/-! PROOFS. The block buffer as a message block (R11, R42), and systems of several engines (R54). -/

namespace Sys2Proof.Machine

/-- The last byte joined is the least significant one (R11). -/
theorem joinBytes_concat (bs : List Byte) (b : Byte) :
    joinBytes (bs ++ [b]) = (joinBytes bs <<< 8) ||| b.setWidth 512 := by
  simp [joinBytes]

/-- The bits of joined bytes, counted from the last byte on (R11). -/
theorem joinBytes_getLsbD (bs : List Byte) {i : Nat} (hi : i < 512) :
    (joinBytes bs).getLsbD i = (bs.reverse.getD (i / 8) 0).getLsbD (i % 8) := by
  induction bs using List.reverseRecOn generalizing i with
  | nil => simp [joinBytes]
  | append_singleton bs b ih =>
    rw [joinBytes_concat, List.reverse_concat, BitVec.getLsbD_or, BitVec.getLsbD_shiftLeft,
      BitVec.getLsbD_setWidth]
    by_cases h8 : i < 8
    · simp [h8, hi, Nat.div_eq_of_lt h8, Nat.mod_eq_of_lt h8]
    · obtain ⟨k, rfl⟩ := Nat.exists_eq_add_of_le' (Nat.not_lt.1 h8)
      simp [hi, ih (i := k) (by omega)]

/-- The bits of a big-endian word, counted from its last byte on (R14). -/
theorem be32_getLsbD (b0 b1 b2 b3 : Byte) {i : Nat} (hi : i < 32) :
    (be32 b0 b1 b2 b3).getLsbD i = ([b3, b2, b1, b0].getD (i / 8) 0).getLsbD (i % 8) := by
  obtain ⟨q, r, hr, rfl⟩ : ∃ q r, r < 8 ∧ i = 8 * q + r := ⟨i / 8, i % 8, by omega, by omega⟩
  have hq : q < 4 := by omega
  have hdiv : (8 * q + r) / 8 = q := by omega
  have hmod : (8 * q + r) % 8 = r := by omega
  rw [hdiv, hmod]
  simp only [be32, BitVec.getLsbD_append]
  interval_cases q
  · rw [if_pos (by omega)]
    simp
  · rw [if_neg (by omega), if_pos (by omega)]
    simp
  · rw [if_neg (by omega), if_neg (by omega), if_pos (by omega)]
    simp [show 16 + r - 8 - 8 = r by omega]
  · rw [if_neg (by omega), if_neg (by omega), if_neg (by omega)]
    simp [show 24 + r - 8 - 8 - 8 = r by omega]

/-- Word j of 64 joined bytes is made of bytes 4j to 4j + 3, big-endian (R42). -/
theorem blockWord_joinBytes {bs : List Byte} (h : bs.length = 64) {j : Nat} (hj : j < 16) :
    blockWord (joinBytes bs) j = be32 bs[4 * j] bs[4 * j + 1] bs[4 * j + 2] bs[4 * j + 3] := by
  apply BitVec.eq_of_getLsbD_eq
  intro i hi
  obtain ⟨q, r, hr, rfl⟩ : ∃ q r, r < 8 ∧ i = 8 * q + r := ⟨i / 8, i % 8, by omega, by omega⟩
  have hq : q < 4 := by omega
  have hdiv : (480 - 32 * j + (8 * q + r)) / 8 = 60 - 4 * j + q := by omega
  have hmod : (480 - 32 * j + (8 * q + r)) % 8 = (8 * q + r) % 8 := by omega
  have hq8 : (8 * q + r) / 8 = q := by omega
  have hbyte : bs.reverse.getD (60 - 4 * j + q) 0 = bs[4 * j + 3 - q] := by
    rw [List.getD_eq_getElem _ _ (by simp; omega), List.getElem_reverse]
    congr 1; omega
  rw [be32_getLsbD _ _ _ _ hi, blockWord, BitVec.getLsbD_extractLsb', decide_eq_true hi, Bool.true_and,
    joinBytes_getLsbD _ (by omega), hdiv, hmod, hbyte, hq8]
  interval_cases q <;> rfl

/-- A run of slots that reads as bytes has those bytes in its slots, one each (R11). -/
theorem reads_of_slotsFrom {m : List Host.Cell} {n i : Nat} {bs : List Byte} (h : slotsFrom m i n = some bs) :
    bs.length = n ∧ ∀ k, (hk : k < bs.length) → slotRead m (i + k) = some bs[k] := by
  induction n generalizing i bs with
  | zero => cases h; simp
  | succ n ih =>
    rw [slotsFrom] at h
    split at h
    · next b cs hb hcs =>
      cases h
      obtain ⟨hlen, hreads⟩ := ih hcs
      refine ⟨by simp [hlen], fun k hk => ?_⟩
      cases k with
      | zero => exact hb
      | succ k => simpa [Nat.add_assoc, Nat.add_comm 1] using hreads k (by simpa using hk)
    · cases h

/-- A buffer that reads as a block holds 64 bytes, and the block joins them in slot order (R11, R43). -/
theorem readBlock_eq_some {m : List Host.Cell} {blk : Block} (h : readBlock m = some blk) :
    ∃ bs, bs.length = 64 ∧ blk = joinBytes bs ∧ ∀ k, (hk : k < bs.length) → slotRead m k = some bs[k] := by
  obtain ⟨bs, hbs, rfl⟩ := Option.map_eq_some_iff.1 h
  obtain ⟨hlen, hreads⟩ := reads_of_slotsFrom hbs
  exact ⟨bs, hlen, rfl, fun k hk => by simpa using hreads k hk⟩

/-- Settles O44: the block joins the bytes of the 64 slots, and its words are cut out of them. -/
theorem blockParsedBigEndian : Obligations.BlockParsedBigEndian := by
  unfold Obligations.BlockParsedBigEndian
  intro m blk hblk j hj
  obtain ⟨bs, hlen, rfl, hreads⟩ := readBlock_eq_some hblk
  have hword := blockWord_joinBytes hlen hj
  exact ⟨_, _, _, _, hreads _ (by omega), hreads _ (by omega), hreads _ (by omega), hreads _ (by omega),
    hword, hword⟩

/-- Everything a step of one engine can do where it answers: the engine takes its own step, and its state
alone is replaced (R54). -/
theorem stepEngine_eq_next {n : Nat} {k : Fin n} {sys sys' : Engines n} :
    stepEngine k sys = .next sys' ↔ ∃ t, step (sys.get k) = .next t ∧ sys' = sys.set k t := by
  unfold stepEngine
  cases step (sys.get k) <;> simp [eq_comm]

@[simp] theorem get_set_same {n : Nat} (sys : Engines n) (k : Fin n) (t : State) : (sys.set k t).get k = t := by
  simp [Vector.get_eq_getElem]

theorem get_set_other {n : Nat} (sys : Engines n) {j k : Fin n} (t : State) (hjk : j ≠ k) :
    (sys.set k t).get j = sys.get j := by
  rw [Vector.get_eq_getElem, Vector.get_eq_getElem, Vector.getElem_set_ne]
  exact fun h => hjk (Fin.ext h.symm)

/-- Settles O47: the step replaces the state of the stepping engine alone. -/
theorem enginesDoNotInterfere : Obligations.EnginesDoNotInterfere := by
  unfold Obligations.EnginesDoNotInterfere
  intro n k sys sys' h
  obtain ⟨t, hstep, rfl⟩ := stepEngine_eq_next.1 h
  exact ⟨by rw [hstep, get_set_same], fun j hj => get_set_other sys t hj⟩

end Sys2Proof.Machine
end

section
/-! PROOFS. Decoding by the fields of a word (R62, R63), and the illegal words (R65). -/

namespace Sys2Proof.Machine

/-! ## A word is its three fields -/

/-- The word with the given fields (R62). -/
def wordOfFields (f : Fields) : CmdWord := f.op ++ f.rsv ++ f.imm8

@[simp] theorem wordOfFields_ofWord (w : CmdWord) : wordOfFields (Fields.ofWord w) = w := by
  have hhigh : w.extractLsb' 12 4 ++ w.extractLsb' 8 4 = w.extractLsb' 8 8 :=
    BitVec.extractLsb'_append_extractLsb'_eq_extractLsb' rfl
  rw [wordOfFields, Fields.ofWord, hhigh]
  exact BitVec.extractLsb'_append_extractLsb' (w := 8) (len := 8)

theorem fields_eq_iff {f g : Fields} : f = g ↔ f.op = g.op ∧ f.rsv = g.rsv ∧ f.imm8 = g.imm8 := by
  cases f; cases g; simp

theorem ofWord_inj {v w : CmdWord} : Fields.ofWord v = Fields.ofWord w ↔ v = w :=
  (Function.LeftInverse.injective wordOfFields_ofWord).eq_iff

/-- A mask applies to each field on its own. -/
theorem ofWord_and (w m : CmdWord) :
    Fields.ofWord (w &&& m) =
      ⟨(Fields.ofWord w).op &&& (Fields.ofWord m).op, (Fields.ofWord w).rsv &&& (Fields.ofWord m).rsv,
        (Fields.ofWord w).imm8 &&& (Fields.ofWord m).imm8⟩ := by
  simp [Fields.ofWord, BitVec.extractLsb'_and]

/-! ## The words of the commands -/

theorem fieldsLegal (i : Instr) : Laws.FieldsLegal.Statement i := by
  cases i with
  | init => exact Laws.FieldsLegal.init
  | push b => exact Laws.FieldsLegal.push b
  | finish => exact Laws.FieldsLegal.finish
  | get j => exact Laws.FieldsLegal.get j
  | stat => exact Laws.FieldsLegal.stat

theorem noOperand_eq_instr {imm8 : BitVec 8} {i j : Instr} :
    noOperand imm8 i = .instr j ↔ imm8 = 0 ∧ i = j := by
  unfold noOperand
  split <;> simp_all

/-- The opcode map gives a command exactly its own opcode and operand (R63). -/
theorem decodeOpcode_eq_instr {op : BitVec 4} {imm8 : BitVec 8} {i : Instr} :
    decodeOpcode op imm8 = .instr i ↔ op = i.fields.op ∧ imm8 = i.fields.imm8 := by
  constructor
  · intro h
    unfold decodeOpcode at h
    split at h
    · obtain ⟨himm, rfl⟩ := noOperand_eq_instr.1 h; exact ⟨rfl, himm⟩
    · cases h; exact ⟨rfl, rfl⟩
    · obtain ⟨himm, rfl⟩ := noOperand_eq_instr.1 h; exact ⟨rfl, himm⟩
    · cases h; exact ⟨rfl, rfl⟩
    · obtain ⟨himm, rfl⟩ := noOperand_eq_instr.1 h; exact ⟨rfl, himm⟩
    · cases h
  · rintro ⟨rfl, rfl⟩
    cases i <;> rfl

/-- A word decodes to a command exactly when it has that command's three fields (R63). -/
theorem decode_eq_instr_iff {w : CmdWord} {i : Instr} :
    decode w = .instr i ↔ Fields.ofWord w = i.fields := by
  have hrsv : i.fields.rsv = 0 := by cases i <;> rfl
  rw [fields_eq_iff, hrsv]
  by_cases h : w.extractLsb' 8 4 = 0
  · simp [decode, h, decodeOpcode_eq_instr, Fields.ofWord]
  · rw [decode, if_neg h]
    exact iff_of_false (by simp) fun hf => h hf.2.1

/-- A word decodes to a command exactly when it is that command's word. -/
theorem decode_eq_instr_iff_encode {w : CmdWord} {i : Instr} : decode w = .instr i ↔ w = encode i := by
  rw [decode_eq_instr_iff, ← (fieldsLegal i).2, ofWord_inj]

/-- A word is illegal exactly when it decodes to no command (R66). -/
theorem decode_illegal_iff {w : CmdWord} :
    (∃ why, decode w = .illegal why) ↔ ∀ i, decode w ≠ .instr i := by
  cases decode w <;> simp

/-! ## Match and mask (R63) -/

/-- Under the full mask a command's match is its word. -/
theorem decode_iff_fullMask (w : CmdWord) (i : Instr) : decode w = .instr i ↔ w &&& 0xFFFF = encode i := by
  rw [decode_eq_instr_iff_encode, show (0xFFFF : CmdWord) = BitVec.allOnes 16 from rfl, BitVec.and_allOnes]

/-- The mask 0xFF00 keeps OP and RSV and clears the operand. -/
theorem ofWord_and_operandMask (w : CmdWord) :
    Fields.ofWord (w &&& 0xFF00) = { Fields.ofWord w with imm8 := 0 } := by
  have hmask : Fields.ofWord 0xFF00 = ⟨BitVec.allOnes 4, BitVec.allOnes 4, 0⟩ := by decide
  rw [ofWord_and, hmask, BitVec.and_allOnes, BitVec.and_allOnes]
  exact congrArg (Fields.mk _ _) BitVec.and_zero

/-- A word decodes to a command with the word's own operand exactly when it meets, under the mask 0xFF00,
the match that has the command's opcode and no operand. -/
theorem decode_iff_operandMask {w v : CmdWord} {i : Instr} (himm : i.fields.imm8 = w.extractLsb' 0 8)
    (hv : Fields.ofWord v = { i.fields with imm8 := 0 }) :
    decode w = .instr i ↔ w &&& 0xFF00 = v := by
  rw [decode_eq_instr_iff, ← ofWord_inj, ofWord_and_operandMask, hv]
  simp [fields_eq_iff, himm, Fields.ofWord]

/-- The operand of a decoded command is the low byte of its word (R64). -/
theorem operand_of_decode {w : CmdWord} {i : Instr} (h : decode w = .instr i) :
    i.fields.imm8 = w.extractLsb' 0 8 := by
  rw [← decode_eq_instr_iff.1 h]; rfl

/-- Settles O2: each command has the fields its match and mask ask for, and an illegal word none of them. -/
theorem decodeFollowsMatchAndMask : Obligations.DecodeFollowsMatchAndMask := by
  unfold Obligations.DecodeFollowsMatchAndMask
  intro w
  have hinit := decode_iff_fullMask w .init
  have hpush : decode w = .instr (.push (w.extractLsb' 0 8)) ↔ w &&& 0xFF00 = 0x2000 :=
    decode_iff_operandMask rfl rfl
  have hfinish := decode_iff_fullMask w .finish
  have hget : decode w = .instr (.get (w.extractLsb' 0 8)) ↔ w &&& 0xFF00 = 0x4000 :=
    decode_iff_operandMask rfl rfl
  have hstat := decode_iff_fullMask w .stat
  refine ⟨hinit, hpush, hfinish, hget, hstat, decode_illegal_iff.trans ⟨fun h => ?_, ?_⟩⟩
  · exact ⟨mt hinit.2 (h _), mt hpush.2 (h _), mt hfinish.2 (h _), mt hget.2 (h _), mt hstat.2 (h _)⟩
  · rintro ⟨ninit, npush, nfinish, nget, nstat⟩ i hi
    have himm := operand_of_decode hi
    cases i with
    | init => exact ninit (hinit.1 hi)
    | push b => exact npush (hpush.1 (himm ▸ hi))
    | finish => exact nfinish (hfinish.1 hi)
    | get j => exact nget (hget.1 (himm ▸ hi))
    | stat => exact nstat (hstat.1 hi)

/-! ## The illegal words (R65) -/

/-- `Fields.wf` as a proposition: a known opcode, RSV clear, and no operand where none is allowed. -/
theorem fields_wf_iff {f : Fields} :
    f.wf ↔ (1 ≤ f.op.toNat ∧ f.op.toNat ≤ 5) ∧ f.rsv = 0 ∧ (f.op ∈ [(1 : BitVec 4), 3, 5] → f.imm8 = 0) := by
  simp [Fields.wf, Fields.opcodeKnown, Fields.reservedClear, Fields.operandAllowed, Fields.takesNoOperand,
    and_assoc, imp_iff_not_or]

/-- The three conditions of R65 are those of `Fields.wf`, denied. -/
theorem not_fields_wf_iff {f : Fields} :
    ¬ f.wf ↔ (f.op = 0 ∨ 6 ≤ f.op.toNat) ∨ f.rsv ≠ 0 ∨ (f.op ∈ [(1 : BitVec 4), 3, 5] ∧ f.imm8 ≠ 0) := by
  have hop : (f.op = 0 ∨ 6 ≤ f.op.toNat) ↔ ¬ (1 ≤ f.op.toNat ∧ f.op.toNat ≤ 5) := by bv_omega
  rw [fields_wf_iff, hop, not_and_or, not_and_or (a := f.rsv = 0), Classical.not_imp]

/-- The fields of a legal word are those of a command (R63, R65). -/
theorem fields_wf_iff_instr {f : Fields} : f.wf ↔ ∃ i : Instr, f = i.fields := by
  constructor
  · intro h
    obtain ⟨op, rsv, imm8⟩ := f
    obtain ⟨hrange, rfl, himm⟩ := fields_wf_iff.1 h
    have hop : op = 1 ∨ op = 2 ∨ op = 3 ∨ op = 4 ∨ op = 5 := by bv_omega
    obtain rfl | rfl | rfl | rfl | rfl := hop
    · exact ⟨.init, congrArg (Fields.mk 1 0) (himm (by simp))⟩
    · exact ⟨.push imm8, rfl⟩
    · exact ⟨.finish, congrArg (Fields.mk 3 0) (himm (by simp))⟩
    · exact ⟨.get imm8, rfl⟩
    · exact ⟨.stat, congrArg (Fields.mk 5 0) (himm (by simp))⟩
  · rintro ⟨i, rfl⟩
    exact (fieldsLegal i).1

/-- A word is illegal exactly when its fields are not well formed (R65). -/
theorem decode_illegal_iff_not_wf {w : CmdWord} :
    (∃ why, decode w = .illegal why) ↔ ¬ (Fields.ofWord w).wf := by
  simp [decode_illegal_iff, decode_eq_instr_iff, fields_wf_iff_instr]

/-- The whole answer to an illegal word: the FAULTED answer, or fault 1 (R65). -/
theorem rejectWord_eq (s : State) :
    rejectWord s = .next (if s.phase = .faulted then respond .fault (causeData s.cause) s
      else raiseFault .illegalCommand s) := by
  by_cases h : s.phase = .faulted
  · rw [rejectWord, unlessFaulted_of_faulted h, if_pos h]
  · rw [rejectWord, unlessFaulted_of_serving h, if_neg h]

/-- Settles O5: the illegal words are those without well-formed fields, and each is rejected. -/
theorem illegalWordsFault : Obligations.IllegalWordsFault := by
  unfold Obligations.IllegalWordsFault
  intro w s
  refine ⟨decode_illegal_iff_not_wf.trans not_fields_wf_iff, ?_⟩
  rintro ⟨why, hw⟩
  rw [runWord_illegal hw, rejectWord_eq]
  rfl

end Sys2Proof.Machine
end

section
/-! PROOFS. INIT (R82), and what a run of transactions keeps without a FINISH (R27, R130). -/

namespace Sys2Proof.Machine

/-! ## The words of a command without operand (R63) -/

/-- Legal fields with an opcode that takes no operand are fixed by that opcode (R65). -/
theorem fields_eq_of_op_eq {f g : Fields} (hf : f.wf) (hg : g.wf) (hno : g.op ∈ [(1 : BitVec 4), 3, 5])
    (hop : f.op = g.op) : f = g := by
  obtain ⟨-, hfrsv, hfimm⟩ := fields_wf_iff.1 hf
  obtain ⟨-, hgrsv, hgimm⟩ := fields_wf_iff.1 hg
  exact fields_eq_iff.2 ⟨hop, hfrsv.trans hgrsv.symm, (hfimm (hop ▸ hno)).trans (hgimm hno).symm⟩

/-- The mask 0xF000 keeps OP alone. -/
theorem op_and_opcodeMask (w : CmdWord) : (Fields.ofWord (w &&& 0xF000)).op = (Fields.ofWord w).op := by
  rw [ofWord_and, show (Fields.ofWord 0xF000).op = BitVec.allOnes 4 by decide, BitVec.and_allOnes]

/-- Of an opcode without operand the command's own word alone is legal (R65). -/
theorem decode_illegal_of_opcode {w : CmdWord} {i : Instr} (hno : i.fields.op ∈ [(1 : BitVec 4), 3, 5])
    (hmatch : w &&& 0xF000 = encode i) (hne : w ≠ encode i) : ∃ why, decode w = .illegal why := by
  obtain ⟨hi, hword⟩ := fieldsLegal i
  have hop : (Fields.ofWord w).op = i.fields.op := by rw [← op_and_opcodeMask, hmatch, hword]
  refine decode_illegal_iff_not_wf.2 fun hw => hne (ofWord_inj.1 ?_)
  rw [hword, fields_eq_of_op_eq hw hi hno hop]

/-- The word of a command runs that command (R63, R80). -/
theorem runWord_encode (i : Instr) (s : State) : runWord (encode i) s = exec i s :=
  runWord_instr (decode_eq_instr_iff_encode.2 rfl) s

/-! ## INIT (R82) -/

/-- In FAULTED every INIT is answered FAULT(CAUSE) (R80). -/
theorem execInit_of_faulted {s : State} (h : s.phase = .faulted) :
    exec .init s = .next (respond .fault (causeData s.cause) s) := by
  rw [exec, execInit, unlessFaulted_of_faulted h]

theorem execInit_of_serving {s : State} (h : s.phase ≠ .faulted) :
    exec .init s = .next (respond .ack 0 (newContext s)) := by
  rw [exec, execInit, unlessFaulted_of_serving h]

/-- INIT leaves no digest to read: PHASE is not FINALIZED after it. -/
theorem execInit_ne_finalized {s t : State} (h : exec .init s = .next t) : t.phase ≠ .finalized := by
  obtain ⟨hs, rfl⟩ | ⟨-, rfl⟩ := execInit_cases h
  · simp [hs]
  · simp

/-! ## Only FINISH finalizes (R27, R84) -/

/-- A word that leaves the engine in FINALIZED found it there or is FINISH. -/
theorem runWord_finalized {w : CmdWord} {s t : State} (h : runWord w s = .next t) (ht : t.phase = .finalized) :
    s.phase = .finalized ∨ decode w = .instr .finish := by
  obtain ⟨-, rfl⟩ | ⟨-, -, rfl⟩ | ⟨-, c, rfl⟩ | ⟨-, -, b, m, -, hm, rfl⟩ | ⟨-, m, hw, -⟩ | ⟨k, x, -, rfl⟩ :=
    runWord_cases h
  · exact .inl ht
  · simp at ht
  · simp at ht
  · rw [pushByte_frame hm] at ht
    exact .inl ht
  · exact .inr hw
  · exact .inl ht

/-- A transaction that answers is an accepted word whose response is delivered (R187). -/
theorem transact_eq_next {w : CmdWord} {s t : State} :
    transact w s = .next t ↔ ∃ m, runWord w s = .next m ∧ t = deliver m := by
  simp only [transact, andThen_eq_next, Host.Outcome.next.injEq, eq_comm (a := t)]

/-- Without a FINISH among the words no run of transactions gets to FINALIZED. -/
theorem transactAll_ne_finalized {ws : List CmdWord} {s t : State} (hws : encode .finish ∉ ws)
    (hs : s.phase ≠ .finalized) (h : transactAll ws s = .next t) : t.phase ≠ .finalized := by
  induction ws generalizing s with
  | nil => cases h; exact hs
  | cons w ws ih =>
    obtain ⟨hw, hrest⟩ := not_or.1 (mt List.mem_cons.2 hws)
    obtain ⟨m, hm, ht⟩ := andThen_eq_next.1 h
    obtain ⟨u, hu, rfl⟩ := transact_eq_next.1 hm
    refine ih hrest (fun hfin => ?_) ht
    obtain hs' | hfinish := runWord_finalized hu hfin
    · exact hs hs'
    · exact hw (decode_eq_instr_iff_encode.1 hfinish).symm

/-! ## GET before the next FINISH (R130) -/

theorem execGet_of_faulted {s : State} (h : s.phase = .faulted) (i : BitVec 8) :
    exec (.get i) s = .next (respond .fault (causeData s.cause) s) := by
  rw [exec, execGet, unlessFaulted_of_faulted h]

theorem execGet_of_accumulating {s : State} (h : s.phase = .accumulating) (i : BitVec 8) :
    exec (.get i) s = .next (raiseFault .notFinalized s) := by
  rw [exec, execGet, unlessFaulted_of_serving (by simp [h]), if_pos h]

/-- Outside FINALIZED every GET answers FAULT (R130, R152). -/
theorem execGet_faults {s : State} (h : s.phase ≠ .finalized) (i : BitVec 8) :
    ∃ u r, exec (.get i) s = .next u ∧ u.rsp = some r ∧ r.kind = .fault := by
  by_cases hf : s.phase = .faulted
  · exact ⟨_, _, execGet_of_faulted hf i, rfl, rfl⟩
  · exact ⟨_, _, execGet_of_accumulating ((serving_cases hf).resolve_right h) i, rfl, rfl⟩

/-- Settles O13: INIT makes a new context, and no word but FINISH leads from it to FINALIZED. -/
theorem initStartsNewContext : Obligations.InitStartsNewContext := by
  unfold Obligations.InitStartsNewContext
  intro s
  refine ⟨runWord_encode .init s, fun w => decode_illegal_of_opcode (i := .init) (by decide), execInit_of_faulted,
    execInit_of_serving, fun t hs ht => ?_, fun ws t i hws ht => ?_⟩
  · rw [execInit_of_serving hs] at ht
    cases ht
    exact execInit_of_serving (by simp)
  · obtain ⟨m, hm, hrest⟩ := andThen_eq_next.1 ht
    obtain ⟨u, hrun, rfl⟩ := transact_eq_next.1 hm
    have hinit : exec .init s = .next u := (runWord_encode .init s).symm.trans hrun
    have hu : u.phase ≠ .finalized := execInit_ne_finalized hinit
    have hend : t.phase ≠ .finalized := transactAll_ne_finalized (s := deliver u) hws hu hrest
    have hget : runWord (0x4000 ||| i.setWidth 16) t = exec (.get i) t := runWord_encode (.get i) t
    rw [hget]
    exact execGet_faults hend i

end Sys2Proof.Machine
end

section
/-! PROOFS. The bits of the helper functions (R106 to R113), the message schedule (R101, R102), and the 64
iterations of a compression (R100, R103 to R105). -/

namespace Sys2Proof.Machine

/-! ## Rotations and shifts (R106, R107) -/

/-- For fewer than 32 places the model's rotation is the library's. -/
theorem rotr_eq_rotateRight (x : Word) {n : Nat} (hn : n < 32) : rotr x n = x.rotateRight n :=
  (BitVec.rotateRight_eq_rotateRightAux_of_lt hn).symm

/-- Bits that stay below bit 31 - n move down, the others come in at the top (R106). -/
theorem rotr_getLsbD (x : Word) {n i : Nat} (hn : n < 32) (hi : i < 32) :
    (rotr x n).getLsbD i = x.getLsbD ((i + n) % 32) := by
  rw [rotr_eq_rotateRight x hn, BitVec.getLsbD_rotateRight, Nat.mod_eq_of_lt hn]
  by_cases hlow : i < 32 - n
  · rw [decide_eq_true hlow, cond_true, Nat.mod_eq_of_lt (by omega), Nat.add_comm]
  · have hwrap : (i + n) % 32 = i - (32 - n) := by omega
    rw [decide_eq_false hlow, cond_false, decide_eq_true hi, Bool.true_and, hwrap]

theorem shr_getLsbD (x : Word) (n i : Nat) :
    (shr x n).getLsbD i = (decide (i + n ≤ 31) && x.getLsbD (i + n)) := by
  rw [shr, BitVec.getLsbD_ushiftRight, Nat.add_comm]
  by_cases hin : i + n ≤ 31
  · rw [decide_eq_true hin, Bool.true_and]
  · rw [decide_eq_false hin, Bool.false_and, BitVec.getLsbD_of_ge _ _ (by omega)]

/-- Settles O39: a rotation takes every bit round, a shift fills with zero. -/
theorem rotationAndShiftBits : Obligations.RotationAndShiftBits := by
  unfold Obligations.RotationAndShiftBits
  intro x n i hi
  refine ⟨fun _ hn => rotr_getLsbD x (by omega) hi, ?_⟩
  rw [shr_getLsbD, Bool.if_false_right]

/-! ## Ch and Maj (R108, R109) -/

theorem ch_getLsbD (x y z : Word) {i : Nat} (hi : i < 32) :
    (ch x y z).getLsbD i = if x.getLsbD i then y.getLsbD i else z.getLsbD i := by
  have hbit : (ch x y z).getLsbD i = ((x.getLsbD i && y.getLsbD i) ^^ (!x.getLsbD i && z.getLsbD i)) := by
    simp [ch, hi]
  rw [hbit]
  cases x.getLsbD i <;> simp

theorem maj_getLsbD (x y z : Word) (i : Nat) :
    (maj x y z).getLsbD i = decide (2 ≤ (x.getLsbD i).toNat + (y.getLsbD i).toNat + (z.getLsbD i).toNat) := by
  have hbit : (maj x y z).getLsbD i =
      ((x.getLsbD i && y.getLsbD i) ^^ (x.getLsbD i && z.getLsbD i) ^^ (y.getLsbD i && z.getLsbD i)) := by
    simp [maj]
  rw [hbit]
  generalize x.getLsbD i = a, y.getLsbD i = b, z.getLsbD i = c
  decide +revert

/-- Settles O40, by the truth tables of three bits. -/
theorem chooseAndMajorityBits : Obligations.ChooseAndMajorityBits := by
  unfold Obligations.ChooseAndMajorityBits
  exact fun x y z i hi => ⟨ch_getLsbD x y z hi, maj_getLsbD x y z i⟩

/-! ## The sigma functions (R110 to R113) -/

/-- Settles O41: each sigma function joins three terms whose bits are known by exclusive or. -/
theorem sigmaBits : Obligations.SigmaBits := by
  unfold Obligations.SigmaBits
  intro x i hi
  have hrot {n : Nat} (hn : n < 32) := rotr_getLsbD x hn hi
  refine ⟨?_, ?_, ?_, ?_⟩
  · simp [bsig0, hrot]
  · simp [bsig1, hrot]
  · simp [ssig0, hrot, shr_getLsbD]
  · simp [ssig1, hrot, shr_getLsbD]

/-! ## The schedule (R101, R102) -/

@[simp] theorem scheduleHead_length (blk : Block) : (scheduleHead blk).length = 16 := by
  simp [scheduleHead]

theorem scheduleHead_getD (blk : Block) {j : Nat} (hj : j < 16) :
    (scheduleHead blk).getD j 0 = blockWord blk j := by
  rw [List.getD_eq_getElem _ _ (by simpa using hj)]
  simp [scheduleHead]

/-- The extension keeps the words it starts from. -/
theorem prefix_extendSchedule (n : Nat) (w : List Word) : w <+: extendSchedule n w := by
  induction n generalizing w with
  | zero => exact List.prefix_rfl
  | succ n ih => exact (List.prefix_append w _).trans (ih _)

@[simp] theorem extendSchedule_length (n : Nat) (w : List Word) :
    (extendSchedule n w).length = w.length + n := by
  induction n generalizing w with
  | zero => rfl
  | succ n ih => rw [extendSchedule, ih, List.length_append, List.length_singleton, Nat.add_assoc, Nat.add_comm 1]

theorem getD_of_prefix {v w : List Word} (h : v <+: w) {j : Nat} (hj : j < v.length) :
    w.getD j 0 = v.getD j 0 := by
  obtain ⟨u, rfl⟩ := h
  exact List.getD_append v u 0 j hj

/-- W[t] depends only on earlier words (R102). -/
theorem scheduleWord_of_prefix {v w : List Word} (h : v <+: w) {t : Nat} (ht : 16 ≤ t) (hv : t ≤ v.length) :
    scheduleWord w t = scheduleWord v t := by
  have hword {k : Nat} (hk : 1 ≤ k) : w.getD (t - k) 0 = v.getD (t - k) 0 := getD_of_prefix h (by omega)
  rw [scheduleWord, hword (by omega), hword (by omega), hword (by omega), hword (by omega), scheduleWord]

/-- Every appended word is the recurrence's over the whole extension: it was made from a prefix of it. -/
theorem extendSchedule_getD {n : Nat} {w : List Word} (hw : 16 ≤ w.length) {t : Nat} (ht : w.length ≤ t)
    (hn : t < w.length + n) :
    (extendSchedule n w).getD t 0 = scheduleWord (extendSchedule n w) t := by
  induction n generalizing w with
  | zero => omega
  | succ n ih =>
    rw [extendSchedule]
    obtain rfl | hlt := Nat.eq_or_lt_of_le ht
    · have hpre := prefix_extendSchedule n (w ++ [scheduleWord w w.length])
      rw [getD_of_prefix hpre (by simp), scheduleWord_of_prefix ((List.prefix_append w _).trans hpre) hw le_rfl]
      simp
    · exact ih (by simp; omega) (by simpa using hlt) (by simp; omega)

theorem schedule_getD_head (blk : Block) {j : Nat} (hj : j < 16) :
    (schedule blk).getD j 0 = blockWord blk j := by
  rw [schedule, getD_of_prefix (prefix_extendSchedule 48 _) (by simpa using hj), scheduleHead_getD blk hj]

theorem schedule_getD_later (blk : Block) {t : Nat} (ht : 16 ≤ t) (hlt : t < 64) :
    (schedule blk).getD t 0 = scheduleWord (schedule blk) t :=
  extendSchedule_getD (by simp) (by simpa using ht) (by simpa using hlt)

/-- Settles O42, by induction on the number of words still to append. -/
theorem scheduleFollowsRecurrence : Obligations.ScheduleFollowsRecurrence := by
  unfold Obligations.ScheduleFollowsRecurrence
  intro blk
  exact ⟨by simp [schedule], fun j hj => schedule_getD_head blk hj, fun t ht hlt => schedule_getD_later blk ht hlt⟩

/-! ## Compression (R100, R103 to R105) -/

/-- A sequence that follows f up to n reaches at n what running f over 0, …, n - 1 gives. -/
theorem foldl_range_eq {α : Type} {f : α → Nat → α} {v : Nat → α} {n : Nat} (h : ∀ t < n, v (t + 1) = f (v t) t) :
    (List.range n).foldl f (v 0) = v n := by
  induction n with
  | zero => rfl
  | succ n ih =>
    rw [List.range_succ, List.foldl_append, ih fun t ht => h t (by omega)]
    exact (h n (by omega)).symm

/-- Settles O43: the sequence is the run of the model's iterations. -/
theorem compressIsSixtyFourIterations : Obligations.CompressIsSixtyFourIterations := by
  unfold Obligations.CompressIsSixtyFourIterations
  rintro _ blk v rfl hstep
  have hiter : ∀ t < 64, v (t + 1) = iterate (schedule blk) (v t) t := hstep
  rw [compress, foldl_range_eq hiter]
  rfl

end Sys2Proof.Machine
end

section
/-! PROOFS. The hex form of a digest and digest equality (R132, R133), GET (R130) and STAT (R131). -/

namespace Sys2Proof.Machine

/-! ## Hex digits (R133) -/

/-- The sixteen digits of the hex form, by value (R133). -/
def hexAlphabet : List Char := ['0', '1', '2', '3', '4', '5', '6', '7', '8', '9', 'a', 'b', 'c', 'd', 'e', 'f']

theorem hexDigit_eq_getD {n : Nat} (hn : n < 16) : hexDigit n = hexAlphabet.getD n ' ' := by
  revert n
  decide

theorem hexDigit_mem (n : BitVec 4) : hexDigit n.toNat ∈ hexAlphabet := by
  rw [hexDigit_eq_getD n.isLt, List.getD_eq_getElem _ _ n.isLt]
  exact List.getElem_mem _

theorem hexDigit_injective : Function.Injective fun n : BitVec 4 => hexDigit n.toNat := by decide

/-! ## The digits of a word (R133) -/

/-- The k-th group of four bits, from the most significant one on, is the k-th base-16 digit. -/
theorem nibble_toNat (w : Word) {k : Nat} (hk : k < 8) :
    (w.extractLsb' (28 - 4 * k) 4).toNat = w.toNat / 16 ^ (7 - k) % 16 := by
  have hpow : 2 ^ (28 - 4 * k) = 16 ^ (7 - k) := by
    rw [show 28 - 4 * k = 4 * (7 - k) by omega, Nat.pow_mul]
  rw [BitVec.extractLsb'_toNat, Nat.shiftRight_eq_div_pow, hpow]

/-- Words with the same eight groups of four bits are the same. -/
theorem eq_of_nibbles_eq {v w : Word} (h : ∀ k < 8, v.extractLsb' (28 - 4 * k) 4 = w.extractLsb' (28 - 4 * k) 4) :
    v = w := by
  apply BitVec.eq_of_getLsbD_eq
  intro i hi
  have hbit := congrArg (·.getLsbD (i % 4)) (h (7 - i / 4) (by omega))
  have hplace : 28 - 4 * (7 - i / 4) + i % 4 = i := by omega
  simpa [hplace, Nat.mod_lt] using hbit

theorem hexWord_eq_digits (w : Word) :
    hexWord w = (List.range 8).map fun k => hexAlphabet.getD (w.toNat / 16 ^ (7 - k) % 16) ' ' := by
  refine List.map_congr_left fun k hk => ?_
  rw [nibble_toNat w (List.mem_range.1 hk), hexDigit_eq_getD (Nat.mod_lt _ (by decide))]

@[simp] theorem hexWord_length (w : Word) : (hexWord w).length = 8 := by simp [hexWord]

@[simp] theorem hexWord_ne_nil (w : Word) : hexWord w ≠ [] := List.ne_nil_of_length_pos (by simp)

theorem hexWord_subset (w : Word) : hexWord w ⊆ hexAlphabet := by
  intro c hc
  obtain ⟨k, -, rfl⟩ := List.mem_map.1 hc
  exact hexDigit_mem _

theorem hexWord_injective : Function.Injective hexWord := fun _ _ h =>
  eq_of_nibbles_eq fun k hk => hexDigit_injective (List.map_inj_left.1 h k (List.mem_range.2 hk))

/-! ## The hex form and digest equality (R132, R133) -/

theorem hexForm_eq_flatMap (d : Words8) :
    hexForm d = [d.w0, d.w1, d.w2, d.w3, d.w4, d.w5, d.w6, d.w7].flatMap hexWord := by
  simp [hexForm]

/-- Every word takes exactly eight digits, so lists of words with the same digits are the same. -/
theorem flatMap_hexWord_injective : Function.Injective (List.flatMap hexWord) := by
  intro vs ws h
  induction vs generalizing ws with
  | nil =>
    cases ws with
    | nil => rfl
    | cons w ws => simp at h
  | cons v vs ih =>
    cases ws with
    | nil => simp at h
    | cons w ws =>
      obtain ⟨hhead, htail⟩ := List.append_inj h (by simp)
      rw [hexWord_injective hhead, ih htail]

theorem words8_eq_iff {d e : Words8} :
    [d.w0, d.w1, d.w2, d.w3, d.w4, d.w5, d.w6, d.w7] = [e.w0, e.w1, e.w2, e.w3, e.w4, e.w5, e.w6, e.w7] ↔ d = e := by
  cases d; cases e; simp

theorem digestEq_iff {d e : Words8} : digestEq d e = true ↔ d = e := by
  simp [digestEq, ← words8_eq_iff, and_assoc]

theorem hexForm_inj {d e : Words8} : hexForm d = hexForm e ↔ d = e := by
  rw [hexForm_eq_flatMap, hexForm_eq_flatMap, flatMap_hexWord_injective.eq_iff, words8_eq_iff]

/-- Settles O50: the hex form is the digits of the eight words in order, and they determine the words. -/
theorem hexFormIdentifiesDigest : Obligations.HexFormIdentifiesDigest := by
  unfold Obligations.HexFormIdentifiesDigest
  intro digits d e
  refine ⟨?_, by simp [hexForm_eq_flatMap], fun c hc => ?_, digestEq_iff, hexForm_inj⟩
  · rw [hexForm_eq_flatMap, funext hexWord_eq_digits]
    rfl
  · rw [hexForm_eq_flatMap] at hc
    obtain ⟨w, -, hw⟩ := List.mem_flatMap.1 hc
    exact hexWord_subset w hw

/-! ## GET (R130) -/

/-- The element an index selects is that of the list of the eight words (R130). -/
theorem wordAt_eq_getElem? (x : Words8) (i : Word) :
    wordAt x i = [x.w0, x.w1, x.w2, x.w3, x.w4, x.w5, x.w6, x.w7][i.toNat]? := by
  rw [wordAt]
  by_cases hi : i.toNat < 8
  · interval_cases i.toNat <;> rfl
  · obtain ⟨n, hn⟩ := Nat.exists_eq_add_of_le' (Nat.not_lt.1 hi)
    rw [hn]
    rfl

@[simp] theorem indexOperand_toNat (i : BitVec 8) : (indexOperand i).toNat = i.toNat := by
  rw [indexOperand, BitVec.toNat_setWidth_of_le (by decide)]

theorem execGet_of_present {s : State} {i : BitVec 8} {x : Word} (h : s.phase = .finalized)
    (hx : wordAt s.h (indexOperand i) = some x) : exec (.get i) s = .next (respond .word x s) := by
  simp [exec, execGet, unlessFaulted_of_serving, h, hx]

theorem execGet_of_absent {s : State} {i : BitVec 8} (h : s.phase = .finalized)
    (hx : wordAt s.h (indexOperand i) = none) : exec (.get i) s = .next (respond .absent 0 s) := by
  simp [exec, execGet, unlessFaulted_of_serving, h, hx]

/-- Settles O16: by the PHASE, and in FINALIZED by whether the index selects a word. -/
theorem getReadsDigestWord : Obligations.GetReadsDigestWord := by
  unfold Obligations.GetReadsDigestWord
  intro s i
  refine ⟨runWord_encode (.get i) s, ?_⟩
  rw [← indexOperand_toNat, ← wordAt_eq_getElem?]
  by_cases hf : s.phase = .faulted
  · rw [if_pos hf]
    exact execGet_of_faulted hf i
  rw [if_neg hf]
  obtain hp | hp := serving_cases hf
  · rw [if_pos hp]
    exact execGet_of_accumulating hp i
  · rw [if_neg (by simp [hp])]
    cases hx : wordAt s.h (indexOperand i) with
    | some x => exact execGet_of_present hp hx
    | none => exact execGet_of_absent hp hx

/-! ## STAT, and the other words in FAULTED (R131, R152) -/

theorem execStat_eq (s : State) : exec .stat s = .next (respond .word (statusWord s.cause s.phase) s) := rfl

/-- The status word has PHASE in bits 1..0, CAUSE in bits 7..4, and 0 elsewhere (R131). -/
theorem statusWord_fields (c : BitVec 4) (p : Phase) :
    (statusWord c p).extractLsb' 0 2 = phaseCode p ∧ (statusWord c p).extractLsb' 2 2 = 0 ∧
    (statusWord c p).extractLsb' 4 4 = c ∧ (statusWord c p).extractLsb' 8 24 = 0 := by
  cases p <;> revert c <;> decide

/-- In FAULTED every command but STAT gets the answer of R152. -/
theorem exec_of_faulted {s : State} {i : Instr} (h : s.phase = .faulted) (hi : i ≠ .stat) :
    exec i s = .next (respond .fault (causeData s.cause) s) := by
  cases i with
  | init => exact execInit_of_faulted h
  | push b => rw [exec, execPush, unlessFaulted_of_faulted h]
  | finish => rw [exec, execFinish, unlessFaulted_of_faulted h]
  | get j => exact execGet_of_faulted h j
  | stat => exact absurd rfl hi

/-- In FAULTED every word but that of STAT, legal or not, gets the answer of R152. -/
theorem runWord_of_faulted {s : State} {w : CmdWord} (h : s.phase = .faulted) (hw : w ≠ encode .stat) :
    runWord w s = .next (respond .fault (causeData s.cause) s) := by
  cases hd : decode w with
  | instr i =>
    have hi : i ≠ .stat := fun hi => hw (decode_eq_instr_iff_encode.1 (hi ▸ hd))
    rw [runWord_instr hd, exec_of_faulted h hi]
  | illegal why => rw [runWord_illegal hd, rejectWord_eq, if_pos h]

/-- Settles O17: STAT answers the status word, and in FAULTED every other word FAULT. -/
theorem statReadsStatusWord : Obligations.StatReadsStatusWord := by
  unfold Obligations.StatReadsStatusWord
  intro s
  obtain ⟨hphase, hgap, hcause, hhigh⟩ := statusWord_fields s.cause s.phase
  refine ⟨runWord_encode .stat s, fun w => decode_illegal_of_opcode (i := .stat) (by decide),
    statusWord s.cause s.phase, execStat_eq s, hphase, hgap, hcause, hhigh, fun hf w => ?_⟩
  by_cases hw : w = 0x5000
  · subst hw
    exact ⟨_, _, runWord_encode .stat s, rfl, by simp⟩
  · exact ⟨_, _, runWord_of_faulted hf hw, rfl, by simpa using hw⟩

end Sys2Proof.Machine
end

section
/-! PROOFS. The FAULTED state: what its words answer, that only reset leaves it, and the order of the fault
checks (R152 to R154). -/

namespace Sys2Proof.Machine

/-! ## Words in FAULTED (R152) -/

/-- What a word is answered in FAULTED with the given CAUSE (R152). -/
def faultedResponse (cause : BitVec 4) (w : CmdWord) : Response :=
  if w = encode .stat then ⟨.word, statusWord cause .faulted⟩ else ⟨.fault, causeData cause⟩

/-- In FAULTED a word stores its response and changes nothing else. -/
theorem runWord_eq_faultedResponse {s : State} (h : s.phase = .faulted) (w : CmdWord) :
    runWord w s = .next { s with rsp := some (faultedResponse s.cause w) } := by
  by_cases hw : w = encode .stat
  · rw [hw, runWord_encode, execStat_eq, faultedResponse, if_pos rfl, respond, h]
  · rw [runWord_of_faulted h hw, faultedResponse, if_neg hw, respond]

/-- In FAULTED a transaction delivers the answer of its word and changes nothing else (R187). -/
theorem transact_of_faulted {s : State} (h : s.phase = .faulted) (w : CmdWord) :
    transact w s = .next { s with rsp := none, delivered := s.delivered ++ [faultedResponse s.cause w] } := by
  rw [transact, runWord_eq_faultedResponse h, andThen_next]
  rfl

/-- In FAULTED a run of transactions delivers the answers of its words in order, and beside the outstanding
response changes nothing else. -/
theorem transactAll_of_faulted (ws : List CmdWord) {s : State} (h : s.phase = .faulted) :
    ∃ r, transactAll ws s =
      .next { s with rsp := r, delivered := s.delivered ++ ws.map (faultedResponse s.cause) } := by
  induction ws generalizing s with
  | nil => exact ⟨s.rsp, by simp [transactAll]⟩
  | cons w ws ih =>
    obtain ⟨r, hr⟩ := ih (s := { s with rsp := none, delivered := s.delivered ++ [faultedResponse s.cause w] }) h
    refine ⟨r, ?_⟩
    rw [transactAll_cons, transact_of_faulted h, andThen_next, hr, List.append_assoc]
    rfl

/-- Settles O23: one word only stores its answer, and so a run of words keeps the engine's state. -/
theorem faultedIsSticky : Obligations.FaultedIsSticky := by
  unfold Obligations.FaultedIsSticky
  refine ⟨fun w s h => runWord_eq_faultedResponse h w, fun ws s h => ?_⟩
  obtain ⟨r, hr⟩ := transactAll_of_faulted ws h
  exact ⟨_, hr, h, rfl, rfl, rfl, rfl, by simp [State.good, h]⟩

/-! ## Leaving FAULTED (R153, R180) -/

/-- A step at an edge with `rst` high is the hardware reset (R158). -/
theorem step_of_rst {s : State} {e : Edge} {rest : List Edge} (hin : s.inputs = e :: rest) (hrst : e.rst = true) :
    step s = .next (hardwareReset { s with inputs := rest }) := by
  rw [step_cons hin, clockEdge, if_pos hrst]

/-- In FAULTED an edge with `rst` low keeps the PHASE: an accepted word is only answered, a hold keeps it. -/
theorem clockEdge_keeps_faulted {e : Edge} {s t : State} (hs : s.phase = .faulted) (hrst : e.rst = false)
    (h : clockEdge e s = .next t) : t.phase = .faulted := by
  obtain ⟨hr, -⟩ | ⟨-, -, hc⟩ | ⟨-, -, -, hc⟩ | ⟨-, -, -, hc⟩ := clockEdge_cases e s
  · rw [hrst] at hr
    cases hr
  · rw [hc] at h
    cases h
  · rw [hc, runWord_eq_faultedResponse (s := acceptCommand e.cmdWord s) hs] at h
    cases h
    exact hs
  · rw [hc, holdEdge_frame] at h
    cases h
    exact hs

/-- Settles O24: every edge but a reset keeps FAULTED, and a reset ends it. -/
theorem onlyResetLeavesFaulted : Obligations.OnlyResetLeavesFaulted := by
  unfold Obligations.OnlyResetLeavesFaulted
  intro s hs
  refine ⟨fun t ht hne => ?_, fun e rest hin hrst => ⟨_, step_of_rst hin hrst, rfl, rfl⟩⟩
  cases hin : s.inputs with
  | nil =>
    rw [step_nil hin] at ht
    cases ht
    exact absurd hs hne
  | cons e rest =>
    rw [step_cons hin] at ht
    refine ⟨e, rest, rfl, Bool.of_not_eq_false fun hrst => hne ?_⟩
    exact clockEdge_keeps_faulted (s := { s with inputs := rest }) hs hrst ht

/-! ## The order of the fault checks (R154) -/

theorem execPush_of_finalized {s : State} (h : s.phase = .finalized) (b : BitVec 8) :
    exec (.push b) s = .next (raiseFault .useAfterFinish s) := by
  rw [exec, execPush, unlessFaulted_of_serving (by simp [h]), if_pos h]

theorem execFinish_of_finalized {s : State} (h : s.phase = .finalized) :
    exec .finish s = .next (raiseFault .useAfterFinish s) := by
  rw [exec, execFinish, unlessFaulted_of_serving (by simp [h]), if_pos h]

/-- With LEN at or above the longest message a PUSH takes fault 4 (R83). -/
theorem execPush_of_full {s : State} (h : s.phase = .accumulating) (hlen : 2 ^ 61 - 1 ≤ s.len.toNat) (b : BitVec 8) :
    exec (.push b) s = .next (raiseFault .lengthOverflow s) := by
  rw [exec, execPush, unlessFaulted_of_serving (by simp [h]), if_neg (by simp [h]),
    if_pos ((maxMsgBytes_le_iff _).2 hlen)]

/-- Settles O25: each clause is the answer of the one check that applies first. -/
theorem faultChecksInOrder : Obligations.FaultChecksInOrder := by
  unfold Obligations.FaultChecksInOrder
  intro w s
  refine ⟨fun h => runWord_eq_faultedResponse h w, ?_, ?_, ?_, ?_⟩
  · rintro h ⟨why, hw⟩
    rw [runWord_illegal hw, rejectWord_eq, if_neg h]
    rfl
  · rintro h (⟨b, hw⟩ | hw)
    · exact (runWord_instr hw s).trans (execPush_of_finalized h b)
    · exact (runWord_instr hw s).trans (execFinish_of_finalized h)
  · rintro h ⟨i, hw⟩
    exact (runWord_instr hw s).trans (execGet_of_accumulating h i)
  · rintro h ⟨b, hw⟩ hlen
    exact (runWord_instr hw s).trans (execPush_of_full h hlen b)

end Sys2Proof.Machine
end

section
/-! PROOFS. The hardware reset (R180), and the port at its edge (R181). -/

namespace Sys2Proof.Machine

/-- No command is accepted at an edge with `rst` high (R181). -/
theorem cmdReady_of_rst (s : State) {e : Edge} (hrst : e.rst = true) : cmdReady s e = false := by
  simp [cmdReady, hrst]

/-- No response is offered at an edge with `rst` high (R181). -/
theorem rspValid_of_rst (s : State) {e : Edge} (hrst : e.rst = true) : rspValid s e = false := by
  simp [rspValid, hrst]

/-- After the hardware reset every slot of the block buffer is ⊥ (R180). -/
@[simp] theorem slotRead_hardwareReset (s : State) (i : Nat) : slotRead (hardwareReset s).buf i = none := rfl

/-- Settles O8: with `rst` high the port is low and the step is the hardware reset, whose fields are R180's. -/
theorem resetTakesResetState : Obligations.ResetTakesResetState := by
  unfold Obligations.ResetTakesResetState
  intro s e rest hin hrst
  have hstep : step s = .next (hardwareReset { s with inputs := rest }) := step_of_rst hin hrst
  exact ⟨cmdReady_of_rst s hrst, rspValid_of_rst s hrst, _, hstep, hardwareReset_h _,
    slotRead_hardwareReset _, hardwareReset_len _, hardwareReset_phase _, hardwareReset_cause _,
    hardwareReset_rsp _, hardwareReset_inputs _⟩

end Sys2Proof.Machine
end

section
/-! PROOFS. Decode and encode agree (R62 to R66), the number of legal words (R66), and the words the assembler
makes (R68, R69). -/

namespace Sys2Proof.Machine

/-! ## Decode and encode (R62 to R66) -/

/-- The word of a command decodes to it. -/
@[simp] theorem decode_encode (i : Instr) : decode (encode i) = .instr i :=
  decode_eq_instr_iff_encode.2 rfl

/-- Settles O3: a word and a command agree exactly where their three fields do. -/
theorem decodeEncodeAgree : Obligations.DecodeEncodeAgree := by
  unfold Obligations.DecodeEncodeAgree
  exact ⟨decode_encode, fun w i h => (decode_eq_instr_iff_encode.1 h).symm⟩

/-- Settles O1, by evaluating the decoder on the nine words. -/
theorem writtenWordsDecode : Obligations.WrittenWordsDecode := by
  unfold Obligations.WrittenWordsDecode
  decide

/-! ## The number of a command's word (R63) -/

theorem encode_push_toNat (b : Byte) : (encode (.push b)).toNat = 0x2000 + b.toNat := by
  revert b
  decide

theorem encode_get_toNat (i : BitVec 8) : (encode (.get i)).toNat = 0x4000 + i.toNat := by
  revert i
  decide

/-- The legal words as numbers: three single ones and two runs of 256 (R63). -/
theorem decode_instr_iff_toNat {w : CmdWord} :
    (∃ i, decode w = .instr i) ↔ w.toNat = 0x1000 ∨ (0x2000 ≤ w.toNat ∧ w.toNat < 0x2100) ∨ w.toNat = 0x3000 ∨
      (0x4000 ≤ w.toNat ∧ w.toNat < 0x4100) ∨ w.toNat = 0x5000 := by
  constructor
  · rintro ⟨i, hi⟩
    rw [decode_eq_instr_iff_encode.1 hi]
    cases i with
    | init => decide
    | push b => rw [encode_push_toNat]; omega
    | finish => decide
    | get j => rw [encode_get_toNat]; omega
    | stat => decide
  · rintro (h | ⟨hlow, hhigh⟩ | h | ⟨hlow, hhigh⟩ | h)
    · exact ⟨.init, decode_eq_instr_iff_encode.2 (BitVec.eq_of_toNat_eq h)⟩
    · refine ⟨.push (BitVec.ofNat 8 (w.toNat - 0x2000)), decode_eq_instr_iff_encode.2 (BitVec.eq_of_toNat_eq ?_)⟩
      rw [encode_push_toNat, BitVec.toNat_ofNat]
      omega
    · exact ⟨.finish, decode_eq_instr_iff_encode.2 (BitVec.eq_of_toNat_eq h)⟩
    · refine ⟨.get (BitVec.ofNat 8 (w.toNat - 0x4000)), decode_eq_instr_iff_encode.2 (BitVec.eq_of_toNat_eq ?_)⟩
      rw [encode_get_toNat, BitVec.toNat_ofNat]
      omega
    · exact ⟨.stat, decode_eq_instr_iff_encode.2 (BitVec.eq_of_toNat_eq h)⟩

/-! ## Counting the legal words (R66) -/

/-- The word with number n is legal. -/
def isLegalNumber (n : Nat) : Bool :=
  match decode (BitVec.ofNat 16 n) with
  | .instr _ => true
  | .illegal _ => false

theorem isLegalNumber_iff (n : Nat) : isLegalNumber n = true ↔ ∃ i, decode (BitVec.ofNat 16 n) = .instr i := by
  rw [isLegalNumber]
  cases decode (BitVec.ofNat 16 n) <;> simp

/-- The numbers of the legal words. -/
def legalNumbers : Finset Nat :=
  {0x1000} ∪ Finset.Ico 0x2000 0x2100 ∪ {0x3000} ∪ Finset.Ico 0x4000 0x4100 ∪ {0x5000}

theorem filter_isLegalNumber : (Finset.range 65536).filter (isLegalNumber ·) = legalNumbers := by
  ext n
  simp only [Finset.mem_filter, Finset.mem_range, isLegalNumber_iff, decode_instr_iff_toNat, BitVec.toNat_ofNat,
    legalNumbers, Finset.mem_union, Finset.mem_singleton, Finset.mem_Ico]
  omega

theorem countP_isLegalNumber : (List.range 65536).countP isLegalNumber = 515 := by
  have hcount := Nat.count_eq_card_filter_range (isLegalNumber ·) 65536
  rw [filter_isLegalNumber] at hcount
  have hcard : legalNumbers.card = 515 := by decide +kernel
  simpa [Nat.count, hcard] using hcount

/-- Settles O4: the legal words are counted by their numbers, and every other word is illegal. -/
theorem legalWordCount : Obligations.LegalWordCount := by
  unfold Obligations.LegalWordCount
  have hlegal := countP_isLegalNumber
  have hall := List.length_eq_countP_add_countP isLegalNumber (l := List.range 65536)
  rw [List.length_range, hlegal] at hall
  refine ⟨hlegal, ?_⟩
  have hillegal : (List.range 65536).countP (fun n => decide ¬ isLegalNumber n = true) = 65021 := by omega
  rw [← hillegal]
  refine List.countP_congr fun n _ => ?_
  rw [isLegalNumber]
  cases decode (BitVec.ofNat 16 n) <;> simp

/-! ## The assembler (R68, R69) -/

/-- An operand byte keeps its number in the word of PUSH. -/
theorem encode_push_ofNat {n : Nat} (hn : n ≤ 255) :
    encode (.push (BitVec.ofNat 8 n)) = BitVec.ofNat 16 (0x2000 + n) := by
  apply BitVec.eq_of_toNat_eq
  rw [encode_push_toNat, BitVec.toNat_ofNat, BitVec.toNat_ofNat]
  omega

theorem encode_get_ofNat {n : Nat} (hn : n ≤ 255) :
    encode (.get (BitVec.ofNat 8 n)) = BitVec.ofNat 16 (0x4000 + n) := by
  apply BitVec.eq_of_toNat_eq
  rw [encode_get_toNat, BitVec.toNat_ofNat, BitVec.toNat_ofNat]
  omega

theorem pushAllWords_ofNat {bs : List Nat} (hbs : ∀ b ∈ bs, b ≤ 255) :
    pushAllWords (bs.map (BitVec.ofNat 8)) = bs.map fun b => BitVec.ofNat 16 (0x2000 + b) := by
  rw [pushAllWords, List.map_map]
  exact List.map_congr_left fun b hb => encode_push_ofNat (hbs b hb)

/-- A line with its operands in range assembles to its expansion. -/
theorem assemble_eq_some {l : AsmLine} {ws : List CmdWord} (h : l.wf = true) (hws : expandLine l = ws) :
    assemble l = some ws := by
  rw [assemble, if_pos h, hws]

theorem assemble_eq_none {l : AsmLine} (h : l.wf = false) : assemble l = none := if_neg (by simp [h])

/-- A line that assembles does so to its expansion. -/
theorem expandLine_of_assemble {l : AsmLine} {ws : List CmdWord} (h : assemble l = some ws) : expandLine l = ws := by
  rw [assemble] at h
  split at h
  · exact Option.some.inj h
  · cases h

/-- A byte list is in range exactly where each of its bytes is (R68). -/
theorem bulk_wf_iff {bs : List Nat} : (bs.all fun b => decide (b ≤ 255)) = true ↔ ∀ b ∈ bs, b ≤ 255 := by
  simp

theorem bulk_wf_eq_false {bs : List Nat} (h : ∃ n ∈ bs, 255 < n) : (bs.all fun b => decide (b ≤ 255)) = false := by
  obtain ⟨n, hn, hlt⟩ := h
  exact Bool.eq_false_iff.2 fun hall => absurd (bulk_wf_iff.1 hall n hn) (by omega)

/-- The words of HASH are INIT, the pushes, FINISH and READ_DIGEST (R69). -/
theorem expandLine_hash (bs : List Nat) : expandLine (.hash bs) =
    encode .init :: (pushAllWords (bs.map (BitVec.ofNat 8)) ++ encode .finish :: readDigestWords) := by
  simp [expandLine, hashWords]

theorem mem_pushAllWords {m : List Byte} {w : CmdWord} : w ∈ pushAllWords m ↔ ∃ b ∈ m, encode (.push b) = w :=
  List.mem_map

theorem legal_of_mem_pushAllWords {m : List Byte} {w : CmdWord} (h : w ∈ pushAllWords m) :
    ∃ i, decode w = .instr i := by
  obtain ⟨b, -, rfl⟩ := mem_pushAllWords.1 h
  exact ⟨_, decode_encode _⟩

theorem legal_of_mem_readDigestWords {w : CmdWord} (h : w ∈ readDigestWords) : ∃ i, decode w = .instr i := by
  obtain ⟨i, -, rfl⟩ := List.mem_map.1 h
  exact ⟨_, decode_encode _⟩

theorem legal_of_mem_hashWords {m : List Byte} {w : CmdWord} (h : w ∈ hashWords m) : ∃ i, decode w = .instr i := by
  rw [hashWords, List.mem_cons, List.mem_append, List.mem_singleton] at h
  obtain rfl | h | rfl := h
  · exact ⟨_, decode_encode _⟩
  · exact legal_of_mem_pushAllWords h
  · exact ⟨_, decode_encode _⟩

/-- Every line but a raw word expands to words of commands (R69). -/
theorem legal_of_mem_expandLine {l : AsmLine} {w : CmdWord} (hl : ∀ v, l ≠ .rawWord v) (h : w ∈ expandLine l) :
    ∃ i, decode w = .instr i := by
  have hone {i : Instr} (h : w ∈ [encode i]) : ∃ i, decode w = .instr i :=
    ⟨i, by rw [List.mem_singleton.1 h, decode_encode]⟩
  cases l with
  | blank => cases h
  | init => exact hone h
  | push b => exact hone h
  | finish => exact hone h
  | get i => exact hone h
  | stat => exact hone h
  | rawWord v => exact absurd rfl (hl v)
  | pushAll bs => exact legal_of_mem_pushAllWords h
  | readDigest => exact legal_of_mem_readDigestWords h
  | hash bs =>
    obtain h | h := List.mem_append.1 h
    · exact legal_of_mem_hashWords h
    · exact legal_of_mem_readDigestWords h

/-- Settles O49: a well-formed line is its expansion, and an operand out of range makes a line ill formed. -/
theorem assembledWordsAreLegal : Obligations.AssembledWordsAreLegal := by
  unfold Obligations.AssembledWordsAreLegal
  intro pushes digest
  have hdigest : readDigestWords = digest := by decide
  refine ⟨rfl, rfl, rfl, rfl, congrArg some hdigest, fun n hn => ⟨?_, ?_⟩, fun bs hbs => ⟨?_, ?_⟩, fun w hw => ?_,
    fun w hw => ?_, fun l ws hws hl w hw => ?_, fun n hn => ⟨?_, ?_⟩, fun bs hbs => ⟨?_, ?_⟩⟩
  · exact assemble_eq_some (decide_eq_true hn) (congrArg (fun w => [w]) (encode_push_ofNat hn))
  · exact assemble_eq_some (decide_eq_true hn) (congrArg (fun w => [w]) (encode_get_ofNat hn))
  · exact assemble_eq_some (bulk_wf_iff.2 hbs) (pushAllWords_ofNat hbs)
  · refine assemble_eq_some (bulk_wf_iff.2 hbs) ?_
    rw [expandLine_hash, pushAllWords_ofNat hbs, hdigest]
    rfl
  · exact assemble_eq_some (decide_eq_true hw) rfl
  · exact assemble_eq_none (decide_eq_false (by omega))
  · rw [← expandLine_of_assemble hws] at hw
    exact legal_of_mem_expandLine hl hw
  · exact assemble_eq_none (decide_eq_false (by omega))
  · exact assemble_eq_none (decide_eq_false (by omega))
  · exact assemble_eq_none (bulk_wf_eq_false hbs)
  · exact assemble_eq_none (bulk_wf_eq_false hbs)

end Sys2Proof.Machine
end

section
/-! PROOFS. The port and the bookkeeping are neither read nor written by a command (R61, R80). -/

namespace Sys2Proof.Machine

/-- The engine of s, with its outstanding response, behind the port and the bookkeeping of p. -/
def State.withPort (s p : State) : State :=
  { p with h := s.h, buf := s.buf, len := s.len, phase := s.phase, cause := s.cause, rsp := s.rsp }

@[simp] theorem withPort_h (s p : State) : (s.withPort p).h = s.h := rfl
@[simp] theorem withPort_buf (s p : State) : (s.withPort p).buf = s.buf := rfl
@[simp] theorem withPort_len (s p : State) : (s.withPort p).len = s.len := rfl
@[simp] theorem withPort_phase (s p : State) : (s.withPort p).phase = s.phase := rfl
@[simp] theorem withPort_cause (s p : State) : (s.withPort p).cause = s.cause := rfl
@[simp] theorem withPort_rsp (s p : State) : (s.withPort p).rsp = s.rsp := rfl
@[simp] theorem withPort_wait (s p : State) : (s.withPort p).wait = p.wait := rfl
@[simp] theorem withPort_offer (s p : State) : (s.withPort p).offer = p.offer := rfl
@[simp] theorem withPort_accepted (s p : State) : (s.withPort p).accepted = p.accepted := rfl
@[simp] theorem withPort_seed (s p : State) : (s.withPort p).seed = p.seed := rfl
@[simp] theorem withPort_inputs (s p : State) : (s.withPort p).inputs = p.inputs := rfl
@[simp] theorem withPort_delivered (s p : State) : (s.withPort p).delivered = p.delivered := rfl
@[simp] theorem withPort_self (s : State) : s.withPort s = s := rfl

/-- An operation is blind to the port when it does the same behind any port and leaves that port alone. -/
def PortBlind (k : State → Host.Outcome State Fault Refusal) : Prop :=
  ∀ s p : State, k (s.withPort p) = andThen (k s) fun t => .next (t.withPort p)

/-- Operations that are blind to the port are so one after the other. -/
theorem PortBlind.seq {j k : State → Host.Outcome State Fault Refusal} (hj : PortBlind j) (hk : PortBlind k) :
    PortBlind fun s => andThen (j s) k := by
  intro s p
  change andThen (j (s.withPort p)) k = andThen (andThen (j s) k) _
  rw [hj s p, andThen_assoc, andThen_assoc]
  exact congrArg (andThen (j s)) (funext fun t => hk t p)

/-- A choice between such operations is blind to the port where the port does not bear on its condition. -/
theorem PortBlind.ite {j k : State → Host.Outcome State Fault Refusal} {c : State → Prop} [DecidablePred c]
    (hc : ∀ s p : State, c (s.withPort p) ↔ c s) (hj : PortBlind j) (hk : PortBlind k) :
    PortBlind fun s => if c s then j s else k s := by
  intro s p
  simp only [hc]
  split
  · exact hj s p
  · exact hk s p

theorem portBlind_respond (k : RspKind) (x : Word) : PortBlind fun s => .next (respond k x s) := fun _ _ => rfl

theorem portBlind_raiseFault (c : FaultCause) : PortBlind fun s => .next (raiseFault c s) := fun _ _ => rfl

theorem portBlind_unlessFaulted {k : State → Host.Outcome State Fault Refusal} (hk : PortBlind k) :
    PortBlind fun s => unlessFaulted s k :=
  PortBlind.ite (fun _ _ => Iff.rfl) (fun _ _ => rfl) hk

theorem portBlind_consumeBlock : PortBlind consumeBlock := by
  intro s p
  unfold consumeBlock
  rw [withPort_buf]
  cases readBlock s.buf <;> rfl

theorem portBlind_pushByte (b : Byte) : PortBlind (pushByte b) :=
  PortBlind.ite (fun _ _ => Iff.rfl) (fun s p => portBlind_consumeBlock (storeByte b s) p) fun _ _ => rfl

theorem portBlind_pushBytes (bs : List Byte) : PortBlind (pushBytes bs) := by
  induction bs with
  | nil => exact fun _ _ => rfl
  | cons b bs ih => exact (portBlind_pushByte b).seq ih

theorem portBlind_padMessage : PortBlind padMessage := by
  intro s p
  rw [padMessage_eq_pushBytes, padMessage_eq_pushBytes]
  exact portBlind_pushBytes _ s p

/-- Every command is blind to the port (R80). -/
theorem portBlind_exec (i : Instr) : PortBlind (exec i) := by
  cases i with
  | init => exact portBlind_unlessFaulted fun _ _ => rfl
  | push b =>
    refine portBlind_unlessFaulted (.ite (fun _ _ => Iff.rfl) (portBlind_raiseFault _) ?_)
    refine .ite (fun _ _ => Iff.rfl) (portBlind_raiseFault _) ?_
    exact (portBlind_pushByte b).seq (portBlind_respond .ack 0)
  | finish =>
    refine portBlind_unlessFaulted (.ite (fun _ _ => Iff.rfl) (portBlind_raiseFault _) ?_)
    exact portBlind_padMessage.seq fun _ _ => rfl
  | get j =>
    refine portBlind_unlessFaulted (.ite (fun _ _ => Iff.rfl) (portBlind_raiseFault _) ?_)
    intro s p
    simp only [withPort_h]
    cases wordAt s.h (indexOperand j) <;> rfl
  | stat => exact fun _ _ => rfl

/-- Every word, legal or not, is blind to the port (R80). -/
theorem portBlind_runWord (w : CmdWord) : PortBlind (runWord w) := by
  cases hw : decode w with
  | instr i =>
    intro s p
    rw [runWord_instr hw, runWord_instr hw]
    exact portBlind_exec i s p
  | illegal why =>
    intro s p
    rw [runWord_illegal hw, runWord_illegal hw]
    exact portBlind_unlessFaulted (portBlind_raiseFault _) s p

/-- An operation that is blind to the port leaves the port of its own state. -/
theorem PortBlind.eq_withPort {k : State → Host.Outcome State Fault Refusal} (hk : PortBlind k) {s t : State}
    (h : k s = .next t) : t = t.withPort s := by
  have hself := hk s s
  rw [withPort_self, h, andThen_next, Host.Outcome.next.injEq] at hself
  exact hself

/-- The fields of the port and of the bookkeeping are what they were. -/
def SamePort (s t : State) : Prop :=
  t.offer = s.offer ∧ t.wait = s.wait ∧ t.accepted = s.accepted ∧ t.seed = s.seed ∧ t.inputs = s.inputs ∧
    t.delivered = s.delivered

theorem samePort_of_eq_withPort {s t : State} (h : t = t.withPort s) : SamePort s t := by
  rw [h]
  exact ⟨rfl, rfl, rfl, rfl, rfl, rfl⟩

theorem exec_samePort {i : Instr} {s t : State} (h : exec i s = .next t) : SamePort s t :=
  samePort_of_eq_withPort ((portBlind_exec i).eq_withPort h)

theorem runWord_samePort {w : CmdWord} {s t : State} (h : runWord w s = .next t) : SamePort s t :=
  samePort_of_eq_withPort ((portBlind_runWord w).eq_withPort h)

/-- An accepted word that answers leaves its response outstanding (R61 item 3). -/
theorem runWord_rsp {w : CmdWord} {s t : State} (h : runWord w s = .next t) : ∃ r, t.rsp = some r := by
  obtain ⟨-, rfl⟩ | ⟨-, -, rfl⟩ | ⟨-, c, rfl⟩ | ⟨-, -, b, m, -, -, rfl⟩ | ⟨-, m, -, -, rfl⟩ | ⟨k, x, -, rfl⟩ :=
    runWord_cases h
  all_goals exact ⟨_, rfl⟩

/-- Settles O11: a word responds, and the port of its state is kept. -/
theorem oneResponsePerCommand : Obligations.OneResponsePerCommand := by
  unfold Obligations.OneResponsePerCommand
  intro w s t h
  obtain ⟨hoffer, hwait, haccepted, hseed, hinputs, hdelivered⟩ := runWord_samePort h
  exact ⟨runWord_rsp h, hdelivered, hinputs, hwait, hoffer, haccepted, hseed⟩

end Sys2Proof.Machine
end

section
/-! PROOFS. PUSH, FINISH and STAT under the invariant (R83, R84, R131), and what the commands leave unchanged. -/

namespace Sys2Proof.Machine

/-! ## PUSH (R81, R83) -/

/-- In ACCUMULATING the buffer of a state that meets the invariant holds its own bytes as a run (R24). -/
theorem State.Inv.holds {s : State} (h : s.Inv) (hp : s.phase = .accumulating) : Holds s (bufferedBytes s) :=
  holds_of_bufHolds h.bufCanonical (h.bufHolds hp)

/-- In FAULTED a PUSH gets the answer of R152. -/
theorem execPush_of_faulted {s : State} (h : s.phase = .faulted) (b : Byte) :
    exec (.push b) s = .next (respond .fault (causeData s.cause) s) :=
  exec_of_faulted h (by simp)

/-- With room for another byte a PUSH is the push path (R83). -/
theorem execPush_of_room {s : State} (h : s.phase = .accumulating) (hlen : s.len.toNat < 2 ^ 61 - 1) (b : Byte) :
    exec (.push b) s = andThen (pushByte b s) fun t => .next (respond .ack 0 t) := by
  rw [exec, execPush, unlessFaulted_of_serving (by simp [h]), if_neg (by simp [h]),
    if_neg (mt (maxMsgBytes_le_iff _).1 (by omega))]
  rfl

/-- A byte that completes no block is stored (R81). -/
theorem execPush_stores {s : State} (h : s.phase = .accumulating) (hlen : s.len.toNat < 2 ^ 61 - 1)
    (hmod : s.len.toNat % 64 ≠ 63) (b : Byte) : exec (.push b) s = .next (respond .ack 0 (storeByte b s)) := by
  rw [execPush_of_room h hlen, pushByte_of_not_boundary hmod, andThen_next]

/-- The 64th byte of a block runs one compression over the buffered bytes (R81). -/
theorem execPush_compresses {s : State} {bs : List Byte} (h : s.phase = .accumulating)
    (hlen : s.len.toNat < 2 ^ 61 - 1) (hbs : Holds s bs) (hfull : bs.length = 63) (b : Byte) :
    exec (.push b) s = .next (respond .ack 0
      { s with h := compress s.h (joinBytes (bs ++ [b])), buf := [], len := s.len + 1 }) := by
  rw [execPush_of_room h hlen, pushByte_run b hbs, if_pos hfull, andThen_next]

/-- Settles O14: by the PHASE, the length check and whether the byte completes a block. -/
theorem pushAppendsOneByte : Obligations.PushAppendsOneByte := by
  unfold Obligations.PushAppendsOneByte
  intro s b hinv
  by_cases hf : s.phase = .faulted
  · rw [if_pos hf]
    exact execPush_of_faulted hf b
  rw [if_neg hf]
  obtain hp | hp := serving_cases hf
  · rw [if_neg (by simp [hp])]
    by_cases hfull : 2 ^ 61 - 1 ≤ s.len.toNat
    · rw [if_pos hfull]
      exact execPush_of_full hp hfull b
    rw [if_neg hfull]
    by_cases hmod : s.len.toNat % 64 = 63
    · rw [if_pos hmod]
      have hholds := hinv.holds hp
      exact execPush_compresses hp (Nat.not_le.1 hfull) hholds (hholds.count.trans hmod) b
    · rw [if_neg hmod, execPush_stores hp (Nat.not_le.1 hfull) hmod, ← writeOffset_toNat]
      rfl
  · rw [if_pos hp]
    exact execPush_of_finalized hp b

/-! ## FINISH (R84) -/

/-- In ACCUMULATING a FINISH pushes the padding and finalizes (R84). -/
theorem execFinish_of_accumulating {s : State} (h : s.phase = .accumulating) :
    exec .finish s =
      andThen (padMessage s) fun t => .next (respond .ack 0 { t with phase := .finalized }) := by
  rw [exec, execFinish, unlessFaulted_of_serving (by simp [h]), if_neg (by simp [h])]

/-- LEN after a FINISH as one number (R85). -/
theorem len_add_padding (l : BitVec 64) (k : Nat) :
    l + BitVec.ofNat 64 (9 + k) = BitVec.ofNat 64 (l.toNat + 9 + k) := by
  rw [Nat.add_assoc, BitVec.ofNat_add l.toNat, BitVec.ofNat_toNat, BitVec.setWidth_eq]

/-- A FINISH on a buffer that holds bs folds the padded blocks into H (R84, R87). -/
theorem execFinish_run {s : State} {bs : List Byte} (h : s.phase = .accumulating) (hbs : Holds s bs) :
    exec .finish s = .next { s with
      h := foldBlocks s.h (bs ++ padding s.len.toNat)
      buf := []
      len := BitVec.ofNat 64 (s.len.toNat + 9 + paddingZeros s.len.toNat)
      phase := .finalized
      rsp := some ⟨.ack, 0⟩ } := by
  rw [execFinish_of_accumulating h, padMessage_run hbs, len_add_padding]
  rfl

/-- Settles O15: the buffer holds its bytes as a run, which the padding completes to whole blocks. -/
theorem finishCompressesPaddedBlocks : Obligations.FinishCompressesPaddedBlocks := by
  unfold Obligations.FinishCompressesPaddedBlocks
  exact fun s hinv hp => execFinish_run hp (hinv.holds hp)

/-! ## STAT (R131) -/

/-- Settles O18: outside FAULTED CAUSE is 0, and inside it is one of the four codes. -/
theorem statReturnsOneOfSixWords : Obligations.StatReturnsOneOfSixWords := by
  unfold Obligations.StatReturnsOneOfSixWords
  intro s t hinv h
  refine ⟨statusWord s.cause s.phase, ?_, by rw [execStat_cases h, respond_rsp]⟩
  cases hp : s.phase with
  | accumulating => rw [hinv.causeClear (by simp [hp])]; decide
  | finalized => rw [hinv.causeClear (by simp [hp])]; decide
  | faulted =>
    have hcodes : ∀ c ∈ [(1 : BitVec 4), 2, 3, 4],
        statusWord c .faulted ∈ [(0x00 : Word), 0x01, 0x12, 0x22, 0x32, 0x42] := by decide
    exact hcodes s.cause (hinv.causeSet hp)

/-! ## Frames -/

/-- Where a run of pushed bytes that is not empty ends at a block boundary it has cleared BUF (R81). -/
theorem pushBytes_buf_of_boundary {bs : List Byte} {s t : State} (hbs : bs ≠ []) (h : pushBytes bs s = .next t)
    (hl : t.len.toNat % 64 = 0) : t.buf = [] := by
  rw [← List.dropLast_append_getLast hbs, pushBytes_append] at h
  obtain ⟨m, -, hlast⟩ := andThen_eq_next.1 h
  rw [pushBytes_cons] at hlast
  obtain ⟨u, hu, ht⟩ := andThen_eq_next.1 hlast
  cases ht
  exact pushByte_buf_of_boundary hu hl

/-- The padding ends at a block boundary, so it leaves BUF empty, whatever BUF held (R84, R85). -/
theorem padding_clears_buf {s t : State} (h : pushBytes (padding s.len.toNat) s = .next t) : t.buf = [] := by
  refine pushBytes_buf_of_boundary (List.cons_ne_nil _ _) h ?_
  have hmod := padded_length_mod s.len.toNat
  rw [pushBytes_frame h]
  simp only [BitVec.toNat_add, BitVec.toNat_ofNat]
  omega

/-- The slots of a buffer without cells hold ⊥ (R24). -/
theorem slotRead_of_buf_nil {s : State} (h : s.buf = []) (j : Nat) : slotRead s.buf j = none := by
  rw [h]
  rfl

/-- H, LEN and every slot are what they were, and in FAULTED PHASE and CAUSE too. -/
def NothingStored (s t : State) : Prop :=
  t.h = s.h ∧ t.len = s.len ∧ (∀ j, slotRead t.buf j = slotRead s.buf j) ∧
    (s.phase = .faulted → t.phase = s.phase ∧ t.cause = s.cause)

/-- A response alone stores nothing. -/
theorem nothingStored_respond (k : RspKind) (x : Word) (s : State) : NothingStored s (respond k x s) :=
  ⟨rfl, rfl, fun _ => rfl, fun _ => ⟨rfl, rfl⟩⟩

/-- A fault taken outside FAULTED stores nothing (R151). -/
theorem nothingStored_raiseFault {s : State} (h : s.phase ≠ .faulted) (c : FaultCause) :
    NothingStored s (raiseFault c s) :=
  ⟨rfl, rfl, fun _ => rfl, fun hf => absurd hf h⟩

/-- An INIT or a FINISH answers ACK, keeps CAUSE and clears BUF, or it stores nothing (R82, R84). -/
theorem exec_context_cases {i : Instr} {s t : State} (hi : i = .init ∨ i = .finish) (h : exec i s = .next t) :
    (t.rsp = some ⟨.ack, 0⟩ ∧ t.cause = s.cause ∧ t.buf = []) ∨ (t.rsp ≠ some ⟨.ack, 0⟩ ∧ NothingStored s t) := by
  obtain rfl | rfl := hi
  · obtain ⟨-, rfl⟩ | ⟨-, rfl⟩ := execInit_cases h
    · exact .inr ⟨by simp, nothingStored_respond _ _ s⟩
    · exact .inl ⟨rfl, rfl, rfl⟩
  · obtain ⟨-, rfl⟩ | ⟨hp, rfl⟩ | ⟨-, m, hm, rfl⟩ := execFinish_cases h
    · exact .inr ⟨by simp, nothingStored_respond _ _ s⟩
    · exact .inr ⟨by simp, nothingStored_raiseFault (by simp [hp]) _⟩
    · have hcause : m.cause = s.cause := by rw [pushBytes_frame hm]
      have hbuf : m.buf = [] := padding_clears_buf hm
      exact .inl ⟨rfl, hcause, hbuf⟩

/-- Settles O19: an ACK of INIT or FINISH clears BUF, any other answer stores nothing. -/
theorem contextCommandsFrame : Obligations.ContextCommandsFrame := by
  unfold Obligations.ContextCommandsFrame
  intro i s t hi h
  obtain ⟨hack, hcause, hbuf⟩ | ⟨hack, hnothing⟩ := exec_context_cases hi h
  · exact ⟨fun _ => ⟨hcause, slotRead_of_buf_nil hbuf⟩, fun hne => absurd hack hne, exec_samePort h⟩
  · exact ⟨fun heq => absurd heq hack, fun _ => hnothing, exec_samePort h⟩

/-- A pushed byte that completes no block keeps H and every slot but its own (R41, R81). -/
theorem pushByte_keeps_slots {b : Byte} {s t : State} (h : pushByte b s = .next t)
    (hoff : (writeOffset s).toNat ≠ 63) :
    t.h = s.h ∧ ∀ j, j ≠ (writeOffset s).toNat → slotRead t.buf j = slotRead s.buf j := by
  rw [writeOffset_toNat] at hoff
  rw [pushByte_of_not_boundary hoff] at h
  cases h
  exact ⟨rfl, fun j hj => slotRead_slotWrite_other _ _ hj.symm⟩

/-- A pushed byte that completes a block clears BUF (R25, R81). -/
theorem pushByte_clears_buf {b : Byte} {s t : State} (h : pushByte b s = .next t)
    (hoff : (writeOffset s).toNat = 63) : t.buf = [] := by
  rw [writeOffset_toNat] at hoff
  refine pushByte_buf_of_boundary h ?_
  rw [pushByte_len h, len_succ_mod, hoff]

/-- Settles O20: an ACK of PUSH is a pushed byte, any other answer stores nothing. -/
theorem pushFrame : Obligations.PushFrame := by
  unfold Obligations.PushFrame
  intro b s t h
  have hport := exec_samePort h
  obtain ⟨-, rfl⟩ | ⟨hp, rfl⟩ | ⟨hp, -, rfl⟩ | ⟨hp, -, m, hm, rfl⟩ := execPush_cases h
  · exact ⟨fun heq => absurd heq (by simp), fun _ => nothingStored_respond _ _ s, hport⟩
  · exact ⟨fun heq => absurd heq (by simp), fun _ => nothingStored_raiseFault (by simp [hp]) _, hport⟩
  · exact ⟨fun heq => absurd heq (by simp), fun _ => nothingStored_raiseFault (by simp [hp]) _, hport⟩
  · have hframe := pushByte_frame hm
    have hphase : m.phase = s.phase := by rw [hframe]
    have hcause : m.cause = s.cause := by rw [hframe]
    have hclear : (writeOffset s).toNat = 63 → m.buf = [] := pushByte_clears_buf hm
    have hkeep := pushByte_keeps_slots hm
    exact ⟨fun _ => ⟨hphase, hcause, hkeep, fun hoff => slotRead_of_buf_nil (s := m) (hclear hoff)⟩,
      fun hne => absurd rfl hne, hport⟩

/-- GET and STAT only respond, but for GET's fault 3 in ACCUMULATING (R130, R131). -/
theorem exec_readout_cases {i : Instr} {s t : State} (hi : (∃ j, i = .get j) ∨ i = .stat) (h : exec i s = .next t) :
    (∃ k x, t = respond k x s) ∨ (i ≠ .stat ∧ s.phase = .accumulating ∧ t = raiseFault .notFinalized s) := by
  obtain ⟨j, rfl⟩ | rfl := hi
  · obtain ⟨-, ht⟩ | ⟨hp, ht⟩ | ⟨-, x, -, ht⟩ | ⟨-, -, ht⟩ := execGet_cases h
    · exact .inl ⟨_, _, ht⟩
    · exact .inr ⟨by simp, hp, ht⟩
    · exact .inl ⟨_, _, ht⟩
    · exact .inl ⟨_, _, ht⟩
  · exact .inl ⟨_, _, execStat_cases h⟩

/-- Settles O21: a response stores nothing, and neither does fault 3. -/
theorem readoutFrame : Obligations.ReadoutFrame := by
  unfold Obligations.ReadoutFrame
  intro i s t hi h
  have hport := exec_samePort h
  obtain ⟨k, x, rfl⟩ | ⟨hstat, hp, rfl⟩ := exec_readout_cases hi h
  · exact ⟨rfl, rfl, fun _ => rfl, fun _ => ⟨rfl, rfl⟩, hport⟩
  · exact ⟨rfl, rfl, fun _ => rfl, fun hor => absurd hor (by simp [hstat, hp]), hport⟩

end Sys2Proof.Machine
end

section
/-! PROOFS. The invariants of reachable states (R24, R26, R29, R67), and that every step answers (R43). -/

namespace Sys2Proof.Machine

/-! ## The invariant, operation by operation (R29) -/

/-- A new context with CAUSE clear meets the invariant (R82, R180). -/
theorem inv_of_empty {s : State} (hbuf : s.buf = []) (hlen : s.len = 0) (hphase : s.phase = .accumulating)
    (hcause : s.cause = 0) : s.Inv where
  bufCanonical := hbuf ▸ nil_wf
  causeClear _ := hcause
  causeSet h := by simp [hphase] at h
  messageFits _ := by rw [hlen]; decide
  bufHolds _ i _ := by simp [hbuf, hlen, slotRead]
  digestHeld h := by simp [hphase] at h
  lenBounded := by simp [hlen]

/-- The invariant speaks of BUF, LEN, PHASE and CAUSE alone. -/
theorem State.Inv.congr {s t : State} (h : s.Inv) (hbuf : t.buf = s.buf) (hlen : t.len = s.len)
    (hphase : t.phase = s.phase) (hcause : t.cause = s.cause) : t.Inv where
  bufCanonical := hbuf ▸ h.bufCanonical
  causeClear := by rw [hphase, hcause]; exact h.causeClear
  causeSet := by rw [hphase, hcause]; exact h.causeSet
  messageFits := by rw [hphase, hlen]; exact h.messageFits
  bufHolds := by rw [hphase, hbuf, hlen]; exact h.bufHolds
  digestHeld := by rw [hphase, hbuf, hlen]; exact h.digestHeld
  lenBounded := hlen ▸ h.lenBounded

theorem respond_inv {s : State} (h : s.Inv) (k : RspKind) (x : Word) : (respond k x s).Inv :=
  h.congr rfl rfl rfl rfl

theorem causeCode_mem (c : FaultCause) : causeCode c ∈ [(1 : BitVec 4), 2, 3, 4] := by
  cases c <;> decide

/-- Taking a fault keeps the invariant: it sets CAUSE to one of the four codes (R151). -/
theorem raiseFault_inv {s : State} (h : s.Inv) (c : FaultCause) : (raiseFault c s).Inv where
  bufCanonical := h.bufCanonical
  causeClear hp := absurd rfl hp
  causeSet _ := causeCode_mem c
  messageFits hp := by cases hp
  bufHolds hp := by cases hp
  digestHeld hp := by cases hp
  lenBounded := h.lenBounded

/-- A buffer that holds a run of bytes has a byte in exactly the first LEN mod 64 slots (R24). -/
theorem Holds.isSome_slotRead {s : State} {bs : List Byte} (h : Holds s bs) (i : Nat) :
    (slotRead s.buf i).isSome = decide (i < s.len.toNat % 64) := by
  rw [h.cells, slotRead_cellsFrom, if_pos (Nat.zero_le i), ← h.count, Nat.sub_zero]
  rw [Bool.eq_iff_iff]
  simp

/-- A pushed byte leaves a buffer that holds a run of bytes again (R81). -/
theorem pushByte_holds {s t : State} {bs : List Byte} {b : Byte} (h : Holds s bs) (ht : pushByte b s = .next t) :
    ∃ cs, Holds t cs := by
  have hshort := h.short
  have hcount := h.count
  rw [pushByte_run b h] at ht
  split at ht <;> cases ht
  · exact ⟨[], rfl, by rw [len_succ_mod, List.length_nil]; omega⟩
  · exact ⟨bs ++ [b], rfl, by rw [len_succ_mod, List.length_append, List.length_singleton]; omega⟩

/-- A byte pushed below the longest message keeps the invariant (R81, R83). -/
theorem pushByte_inv {s t : State} {b : Byte} (h : s.Inv) (hp : s.phase = .accumulating)
    (hlen : s.len.toNat < 2 ^ 61 - 1) (ht : pushByte b s = .next t) : t.Inv := by
  have hframe := pushByte_frame ht
  have hphase : t.phase = .accumulating := by rw [hframe]; exact hp
  have hcause : t.cause = 0 := by rw [hframe]; exact h.causeClear (by simp [hp])
  have hcount : t.len.toNat = s.len.toNat + 1 := by
    rw [pushByte_len ht, BitVec.toNat_add]
    simp
    omega
  obtain ⟨cs, hcs⟩ := pushByte_holds (h.holds hp) ht
  exact {
    bufCanonical := pushByte_bufCanonical h.bufCanonical ht
    causeClear := fun _ => hcause
    causeSet := fun hf => by simp [hphase] at hf
    messageFits := fun _ => by rw [BitVec.le_def, maxMsgBytes_toNat, hcount]; omega
    bufHolds := fun _ i _ => hcs.isSome_slotRead i
    digestHeld := fun hf => by simp [hphase] at hf
    lenBounded := by omega }

/-- Message and padding of at most 2^61 − 1 bytes end at most at 2^61 + 64, and never wrap (R26, R85). -/
theorem padded_len_toNat {n : Nat} (hn : n ≤ 2 ^ 61 - 1) :
    (BitVec.ofNat 64 (n + 9 + paddingZeros n)).toNat = n + 9 + paddingZeros n ∧
    (n + 9 + paddingZeros n) % 64 = 0 ∧ n + 9 + paddingZeros n ≤ 2 ^ 61 + 64 := by
  rw [BitVec.toNat_ofNat, paddingZeros_eq]
  omega

theorem State.Inv.len_le {s : State} (h : s.Inv) (hp : s.phase = .accumulating) : s.len.toNat ≤ 2 ^ 61 - 1 := by
  have hfits := h.messageFits hp
  rwa [BitVec.le_def, maxMsgBytes_toNat] at hfits

/-- FINISH keeps the invariant: LEN is aligned and BUF empty (R84). -/
theorem execFinish_inv {s t : State} (h : s.Inv) (hp : s.phase = .accumulating)
    (ht : exec .finish s = .next t) : t.Inv := by
  have hcause := h.causeClear (by simp [hp])
  obtain ⟨hlen, hmod, hle⟩ := padded_len_toNat (h.len_le hp)
  rw [execFinish_run hp (h.holds hp)] at ht
  cases ht
  exact {
    bufCanonical := nil_wf
    causeClear := fun _ => hcause
    causeSet := fun hf => by cases hf
    messageFits := fun hf => by cases hf
    bufHolds := fun hf => by cases hf
    digestHeld := fun _ => ⟨by rw [hlen, hmod], by rw [hlen]; omega, rfl⟩
    lenBounded := by rw [hlen]; exact hle }

/-- Every accepted word keeps the invariant. -/
theorem runWord_inv {w : CmdWord} {s t : State} (h : s.Inv) (ht : runWord w s = .next t) : t.Inv := by
  obtain ⟨-, rfl⟩ | ⟨hp, -, rfl⟩ | ⟨-, c, rfl⟩ | ⟨hp, hroom, b, m, -, hm, rfl⟩ | ⟨hp, m, hw, -, -⟩ | ⟨k, x, -, rfl⟩ :=
    runWord_cases ht
  · exact respond_inv h _ _
  · exact inv_of_empty rfl rfl rfl (h.causeClear hp)
  · exact raiseFault_inv h c
  · exact respond_inv (pushByte_inv h hp (Nat.not_le.1 (mt (maxMsgBytes_le_iff _).2 hroom)) hm) _ _
  · exact execFinish_inv h hp ((runWord_instr hw s).symm.trans ht)
  · exact respond_inv h _ _

/-- Every clock edge keeps the invariant. -/
theorem clockEdge_inv {e : Edge} {s t : State} (h : s.Inv) (ht : clockEdge e s = .next t) : t.Inv := by
  obtain ⟨-, hc⟩ | ⟨-, -, hc⟩ | ⟨-, -, -, hc⟩ | ⟨-, -, -, hc⟩ := clockEdge_cases e s <;> rw [hc] at ht
  · cases ht
    exact inv_of_empty rfl rfl rfl rfl
  · cases ht
  · exact runWord_inv (h.congr (t := acceptCommand e.cmdWord s) rfl rfl rfl rfl) ht
  · rw [holdEdge_frame] at ht
    cases ht
    exact h.congr rfl rfl rfl rfl

/-- A fact of a state that a clock edge keeps, and that does not read the coming inputs, is kept by every step. -/
theorem step_induction {P : State → Prop} {s t : State} (hs : P s) (ht : step s = .next t)
    (hinputs : ∀ es, P s → P { s with inputs := es })
    (hedge : ∀ (e : Edge) (u v : State), P u → clockEdge e u = .next v → P v) : P t := by
  cases hin : s.inputs with
  | nil =>
    rw [step_nil hin] at ht
    cases ht
    exact hs
  | cons e rest =>
    rw [step_cons hin] at ht
    exact hedge e _ t (hinputs rest hs) ht

/-- Settles O29: each edge keeps the invariant, by the case of the edge and of the word it accepts. -/
theorem stepKeepsInvariant : Obligations.StepKeepsInvariant := by
  unfold Obligations.StepKeepsInvariant
  exact fun s t h ht => step_induction h ht (fun es h => h.congr rfl rfl rfl rfl) fun e u v hu hv => clockEdge_inv hu hv

/-- Settles O28: the reset state is an empty context with nothing on the port. -/
theorem resetMeetsInvariant : Obligations.ResetMeetsInvariant := by
  unfold Obligations.ResetMeetsInvariant
  exact ⟨inv_of_empty rfl rfl rfl rfl, rfl⟩

/-! ## The canonical form of BUF (R40, R41) -/

/-- An accepted word keeps the canonical form of BUF, in every state. -/
theorem runWord_bufCanonical {w : CmdWord} {s t : State} (h : Memory.wf s.buf) (ht : runWord w s = .next t) :
    Memory.wf t.buf := by
  obtain ⟨-, rfl⟩ | ⟨-, -, rfl⟩ | ⟨-, c, rfl⟩ | ⟨-, -, b, m, -, hm, rfl⟩ | ⟨-, m, -, hm, rfl⟩ | ⟨k, x, -, rfl⟩ :=
    runWord_cases ht
  · exact h
  · exact nil_wf
  · exact h
  · exact (pushByte_bufCanonical h hm : Memory.wf m.buf)
  · exact (pushBytes_bufCanonical h hm : Memory.wf m.buf)
  · exact h

theorem clockEdge_bufCanonical {e : Edge} {s t : State} (h : Memory.wf s.buf) (ht : clockEdge e s = .next t) :
    Memory.wf t.buf := by
  obtain ⟨-, hc⟩ | ⟨-, -, hc⟩ | ⟨-, -, -, hc⟩ | ⟨-, -, -, hc⟩ := clockEdge_cases e s <;> rw [hc] at ht
  · cases ht
    exact nil_wf
  · cases ht
  · exact runWord_bufCanonical (s := acceptCommand e.cmdWord s) h ht
  · rw [holdEdge_frame] at ht
    cases ht
    exact h

/-- Settles O31: BUF changes only by the push path and by being cleared. -/
theorem stepKeepsBufferCanonical : Obligations.StepKeepsBufferCanonical := by
  unfold Obligations.StepKeepsBufferCanonical
  exact fun s t h ht => step_induction (P := fun u => Memory.wf u.buf) h ht (fun _ h => h)
    fun e u v hu hv => clockEdge_bufCanonical hu hv

/-! ## Well-formed responses (R67) -/

/-- The FAULT response of each of the four codes is one the table of R67 lists. -/
theorem faultResponse_wf {c : BitVec 4} (hc : c ∈ [(1 : BitVec 4), 2, 3, 4]) :
    (Response.mk .fault (causeData c)).wf = true := by
  revert c
  decide

theorem responsesWf_iff {s : State} :
    s.responsesWf = true ↔ (∀ r, s.rsp = some r → r.wf = true) ∧ ∀ r ∈ s.delivered, r.wf = true := by
  simp [State.responsesWf]

/-- The response an accepted word leaves is one of R67's, under the invariant. -/
theorem runWord_rspWf {w : CmdWord} {s t : State} (h : s.Inv) (ht : runWord w s = .next t) {r : Response}
    (hr : t.rsp = some r) : r.wf = true := by
  obtain ⟨hp, rfl⟩ | ⟨-, -, rfl⟩ | ⟨-, c, rfl⟩ | ⟨-, -, b, m, -, -, rfl⟩ | ⟨-, m, -, -, rfl⟩ | ⟨k, x, hk, rfl⟩ :=
    runWord_cases ht <;> cases hr
  · exact faultResponse_wf (h.causeSet hp)
  · rfl
  · exact faultResponse_wf (causeCode_mem c)
  · rfl
  · rfl
  · obtain rfl | ⟨rfl, rfl⟩ := hk <;> rfl

/-- A hold keeps the outstanding response or delivers it (R61). -/
theorem holdEdge_cases (e : Edge) (s : State) :
    (deliversAt s e = true ∧ (holdEdge e s).rsp = none ∧ (holdEdge e s).delivered = s.delivered ++ s.rsp.toList) ∨
    (deliversAt s e = false ∧ (holdEdge e s).rsp = s.rsp ∧ (holdEdge e s).delivered = s.delivered) := by
  cases h : deliversAt s e <;> simp [holdEdge, h]

theorem clockEdge_responsesWf {e : Edge} {s t : State} (hinv : s.Inv) (h : s.responsesWf = true)
    (ht : clockEdge e s = .next t) : t.responsesWf = true := by
  obtain ⟨hrsp, hdelivered⟩ := responsesWf_iff.1 h
  rw [responsesWf_iff]
  obtain ⟨-, hc⟩ | ⟨-, -, hc⟩ | ⟨-, -, -, hc⟩ | ⟨-, -, -, hc⟩ := clockEdge_cases e s <;> rw [hc] at ht
  · cases ht
    simp
  · cases ht
  · obtain ⟨-, -, -, -, -, hsame⟩ := runWord_samePort ht
    have hinv' : (acceptCommand e.cmdWord s).Inv := hinv.congr rfl rfl rfl rfl
    refine ⟨fun r hr => runWord_rspWf hinv' ht hr, ?_⟩
    rw [hsame]
    exact hdelivered
  · cases ht
    obtain ⟨-, hr, hd⟩ | ⟨-, hr, hd⟩ := holdEdge_cases e s <;> rw [hr, hd]
    · refine ⟨by simp, fun r hmem => ?_⟩
      obtain hmem | hmem := List.mem_append.1 hmem
      · exact hdelivered r hmem
      · exact hrsp r (by simpa using hmem)
    · exact ⟨hrsp, hdelivered⟩

/-- Settles O32: a word leaves a response of R67's table, and a delivery only moves it. -/
theorem responsesStayWellFormed : Obligations.ResponsesStayWellFormed := by
  unfold Obligations.ResponsesStayWellFormed
  intro s t hinv h ht
  exact (step_induction (P := fun u => u.Inv ∧ u.responsesWf = true) ⟨hinv, h⟩ ht
    (fun _ hu => ⟨hu.1.congr rfl rfl rfl rfl, hu.2⟩)
    fun e u v hu hv => ⟨clockEdge_inv hu.1 hv, clockEdge_responsesWf hu.1 hu.2 hv⟩).2

/-! ## Every step answers (R43) -/

/-- Under the invariant every command answers a next state: the push path meets no ⊥ slot. -/
theorem exec_answers {s : State} (h : s.Inv) (i : Instr) : ∃ t, exec i s = .next t := by
  cases i with
  | init =>
    by_cases hf : s.phase = .faulted
    · exact ⟨_, execInit_of_faulted hf⟩
    · exact ⟨_, execInit_of_serving hf⟩
  | push b => exact ⟨_, pushAppendsOneByte s b h⟩
  | finish =>
    cases hp : s.phase with
    | accumulating => exact ⟨_, execFinish_run hp (h.holds hp)⟩
    | finalized => exact ⟨_, execFinish_of_finalized hp⟩
    | faulted => exact ⟨_, exec_of_faulted hp (by simp)⟩
  | get j => exact ⟨_, (getReadsDigestWord s j).2⟩
  | stat => exact ⟨_, execStat_eq s⟩

theorem runWord_answers {s : State} (h : s.Inv) (w : CmdWord) : ∃ t, runWord w s = .next t := by
  cases hw : decode w with
  | instr i => rw [runWord_instr hw]; exact exec_answers h i
  | illegal why => rw [runWord_illegal hw, rejectWord_eq]; exact ⟨_, rfl⟩

/-- Settles O30: a steady host's edge is a reset, a hold or an accepted word, and each of them answers. -/
theorem everyStepAnswers : Obligations.EveryStepAnswers := by
  unfold Obligations.EveryStepAnswers
  intro s hinv hsteady
  cases hin : s.inputs with
  | nil => exact ⟨s, step_nil hin⟩
  | cons e rest =>
    have hkept : e.rst = true ∨ breaksHandshake s e = false := hsteady e (by simp [hin])
    have hinv' : (acceptCommand e.cmdWord { s with inputs := rest }).Inv := hinv.congr rfl rfl rfl rfl
    rw [step_cons hin]
    obtain ⟨-, hc⟩ | ⟨hrst, hbroken, -⟩ | ⟨-, -, -, hc⟩ | ⟨-, -, -, hc⟩ := clockEdge_cases e { s with inputs := rest }
    · exact ⟨_, hc⟩
    · have hbroken' : breaksHandshake s e = true := hbroken
      simp [hrst, hbroken'] at hkept
    · rw [hc]
      exact runWord_answers hinv' e.cmdWord
    · exact ⟨_, hc⟩

end Sys2Proof.Machine
end

section
/-! PROOFS. Accepting a word, holding a response and delivering it (R61, R189), and the response signals (R67). -/

namespace Sys2Proof.Machine

/-! ## The handshake (R61, R189) -/

/-- The handshake breaks exactly where a held word is withdrawn or changed (R189). -/
theorem breaksHandshake_iff {s : State} {e : Edge} :
    breaksHandshake s e = true ↔ ∃ w, s.offer = some w ∧ ¬ (e.cmdValid = true ∧ e.cmdWord = w) := by
  unfold breaksHandshake
  cases s.offer <;> simp [imp_iff_not_or]

/-- A sequence of operations that never refuse does not refuse. -/
theorem andThen_ne_refused {o : Host.Outcome State Fault Refusal} {k : State → Host.Outcome State Fault Refusal}
    (ho : ∀ r, o ≠ .refused r) (hk : ∀ t r, k t ≠ .refused r) (r : Refusal) : andThen o k ≠ .refused r := by
  cases o with
  | next t => exact hk t r
  | fault q => simp
  | refused q => exact absurd rfl (ho q)

theorem unlessFaulted_ne_refused {s : State} {k : State → Host.Outcome State Fault Refusal}
    (hk : ∀ r, k s ≠ .refused r) (r : Refusal) : unlessFaulted s k ≠ .refused r := by
  unfold unlessFaulted
  split
  · simp
  · exact hk r

/-- No command is refused: every arm has a meaning. -/
theorem exec_ne_refused (i : Instr) (s : State) (r : Refusal) : exec i s ≠ .refused r := by
  cases i with
  | init =>
    rw [exec, execInit]
    exact unlessFaulted_ne_refused (by simp) r
  | push b =>
    rw [exec, execPush]
    refine unlessFaulted_ne_refused (fun r => ?_) r
    split
    · simp
    split
    · simp
    · exact andThen_ne_refused (pushByte_ne_refused _ s) (by simp) r
  | finish =>
    rw [exec, execFinish]
    refine unlessFaulted_ne_refused (fun r => ?_) r
    split
    · simp
    · rw [padMessage_eq_pushBytes]
      exact andThen_ne_refused (pushBytes_ne_refused _ s) (by simp) r
  | get j =>
    rw [(getReadsDigestWord s j).2]
    simp
  | stat => simp [execStat_eq]

theorem runWord_ne_refused (w : CmdWord) (s : State) (r : Refusal) : runWord w s ≠ .refused r := by
  cases hw : decode w with
  | instr i => rw [runWord_instr hw]; exact exec_ne_refused i s r
  | illegal why => rw [runWord_illegal hw, rejectWord_eq]; simp

/-- A clock edge is refused exactly where it breaks the handshake without a reset (U15). -/
theorem clockEdge_eq_refused {e : Edge} {s : State} {r : Refusal} :
    clockEdge e s = .refused r ↔ r = .handshakeBroken ∧ e.rst = false ∧ breaksHandshake s e = true := by
  obtain ⟨hrst, hc⟩ | ⟨hrst, hb, hc⟩ | ⟨-, hb, -, hc⟩ | ⟨-, hb, -, hc⟩ := clockEdge_cases e s <;> rw [hc]
  · simp [hrst]
  · simp [hrst, hb, eq_comm]
  · simp [hb, runWord_ne_refused]
  · simp [hb]

/-- Settles O10: no word is refused, so a refused step is an edge that breaks the handshake. -/
theorem brokenHandshakeRefused : Obligations.BrokenHandshakeRefused := by
  unfold Obligations.BrokenHandshakeRefused
  intro s r
  cases hin : s.inputs with
  | nil => simp [step_nil hin]
  | cons e rest =>
    have hkept : breaksHandshake { s with inputs := rest } e = true ↔ _ := breaksHandshake_iff
    rw [step_cons hin, clockEdge_eq_refused, hkept]
    constructor
    · rintro ⟨hr, hrst, w, hw⟩
      exact ⟨hr, e, rest, w, rfl, hrst, hw⟩
    · rintro ⟨hr, _, _, w, heq, hrst, hw⟩
      cases heq
      exact ⟨hr, hrst, w, hw⟩

/-! ## The edge of an acceptance (R61 item 1, R80) -/

/-- A free port accepts an offered word, where a held offer is kept (R61 item 1). -/
theorem clockEdge_of_offer {s : State} {w : CmdWord} {ready : Bool} (hrsp : s.rsp = none)
    (hoffer : s.offer = none ∨ s.offer = some w) :
    clockEdge { rst := false, cmdValid := true, cmdWord := w, rspReady := ready } s =
      runWord w (acceptCommand w s) := by
  have hkept : breaksHandshake s { rst := false, cmdValid := true, cmdWord := w, rspReady := ready } = false := by
    obtain h | h := hoffer
    · exact breaksHandshake_none h _
    · exact breaksHandshake_same h rfl rfl
  simp [clockEdge, hkept, acceptsAt, cmdReady, hrsp]

theorem step_of_offer {s : State} {w : CmdWord} {ready : Bool} {rest : List Edge} (hrsp : s.rsp = none)
    (hoffer : s.offer = none ∨ s.offer = some w)
    (hin : s.inputs = { rst := false, cmdValid := true, cmdWord := w, rspReady := ready } :: rest) :
    step s = runWord w (acceptCommand w { s with inputs := rest }) := by
  rw [step_cons hin]
  exact clockEdge_of_offer (s := { s with inputs := rest }) hrsp hoffer

/-- Settles O6: the accepted word runs on the state whose port has taken it. -/
theorem stepRunsDecodedCommand : Obligations.StepRunsDecodedCommand := by
  unfold Obligations.StepRunsDecodedCommand
  intro s w ready rest hrsp hoffer hin
  have hstep := step_of_offer hrsp hoffer hin
  exact ⟨fun i hi => hstep.trans (runWord_instr hi _), fun why hwhy => hstep.trans (runWord_illegal hwhy _)⟩

/-! ## Edges without an acceptance (R61, R164) -/

/-- Where the handshake is kept and no word is accepted, an edge without a reset is a hold. -/
theorem clockEdge_of_hold {s : State} {e : Edge} (hrst : e.rst = false) (hkept : breaksHandshake s e = false)
    (haccepts : acceptsAt s e = false) : clockEdge e s = .next (holdEdge e s) := by
  simp [clockEdge, hrst, hkept, haccepts]

theorem step_of_hold {s : State} {e : Edge} {rest : List Edge} (hin : s.inputs = e :: rest) (hrst : e.rst = false)
    (hkept : breaksHandshake s e = false) (haccepts : acceptsAt s e = false) :
    step s = .next (holdEdge e { s with inputs := rest }) := by
  rw [step_cons hin]
  exact clockEdge_of_hold (s := { s with inputs := rest }) hrst hkept haccepts

/-- The engine's own state, the counter, the seed and the inputs through a hold (R164). -/
@[simp] theorem holdEdge_h (e : Edge) (s : State) : (holdEdge e s).h = s.h := by rw [holdEdge_frame]
@[simp] theorem holdEdge_buf (e : Edge) (s : State) : (holdEdge e s).buf = s.buf := by rw [holdEdge_frame]
@[simp] theorem holdEdge_len (e : Edge) (s : State) : (holdEdge e s).len = s.len := by rw [holdEdge_frame]
@[simp] theorem holdEdge_phase (e : Edge) (s : State) : (holdEdge e s).phase = s.phase := by rw [holdEdge_frame]
@[simp] theorem holdEdge_cause (e : Edge) (s : State) : (holdEdge e s).cause = s.cause := by rw [holdEdge_frame]
@[simp] theorem holdEdge_wait (e : Edge) (s : State) : (holdEdge e s).wait = s.wait - 1 := by rw [holdEdge_frame]
@[simp] theorem holdEdge_accepted (e : Edge) (s : State) : (holdEdge e s).accepted = s.accepted := by
  rw [holdEdge_frame]
@[simp] theorem holdEdge_seed (e : Edge) (s : State) : (holdEdge e s).seed = s.seed := by rw [holdEdge_frame]
@[simp] theorem holdEdge_inputs (e : Edge) (s : State) : (holdEdge e s).inputs = s.inputs := by rw [holdEdge_frame]

/-- A response is offered where one is outstanding, its wait is over and `rst` is low (R61, R181). -/
theorem rspValid_iff {s : State} {e : Edge} :
    rspValid s e = true ↔ s.rsp ≠ none ∧ s.wait = 0 ∧ e.rst = false := by
  simp [rspValid, Option.isSome_iff_ne_none, and_assoc]

/-- A response is delivered where one is outstanding, its wait is over and the host takes it (R61 item 2). -/
theorem deliversAt_iff {s : State} {e : Edge} :
    deliversAt s e = true ↔ e.rspReady = true ∧ s.rsp ≠ none ∧ s.wait = 0 ∧ e.rst = false := by
  rw [deliversAt, Bool.and_eq_true, rspValid_iff]

theorem cmdReady_of_outstanding {s : State} {r : Response} (h : s.rsp = some r) (e : Edge) :
    cmdReady s e = false := by
  simp [cmdReady, h]

theorem acceptsAt_of_outstanding {s : State} {r : Response} (h : s.rsp = some r) (e : Edge) :
    acceptsAt s e = false := by
  simp [acceptsAt, cmdReady_of_outstanding h]

theorem acceptsAt_of_not_valid (s : State) {e : Edge} (h : e.cmdValid = false) : acceptsAt s e = false := by
  simp [acceptsAt, h]

/-- Settles O9: with a response outstanding the edge is a hold, which delivers exactly where it may. -/
theorem outstandingResponseHoldsPort : Obligations.OutstandingResponseHoldsPort := by
  unfold Obligations.OutstandingResponseHoldsPort
  intro s e rest r hin hr hrst hkept
  refine ⟨cmdReady_of_outstanding hr e, _, step_of_hold hin hrst hkept (acceptsAt_of_outstanding hr e), holdEdge_h _ _,
    holdEdge_buf _ _, holdEdge_len _ _, holdEdge_phase _ _, holdEdge_cause _ _, holdEdge_accepted _ _,
    holdEdge_seed _ _, holdEdge_wait _ _, ?_⟩
  have hdelivers : deliversAt { s with inputs := rest } e = true ↔ s.wait = 0 ∧ e.rspReady = true := by
    simp [deliversAt_iff, hr, hrst, and_comm]
  obtain ⟨hd, hrsp, hdelivered⟩ | ⟨hd, hrsp, hdelivered⟩ := holdEdge_cases e { s with inputs := rest }
  · rw [if_pos (hdelivers.1 hd)]
    exact ⟨hrsp, by rw [hdelivered, hr]; rfl⟩
  · rw [if_neg (mt hdelivers.2 (by simp [hd]))]
    exact ⟨hrsp.trans hr, hdelivered⟩

/-- Settles O7: an edge at which nothing is offered, outstanding or reset is a hold with nothing to deliver. -/
theorem idleEngineKeepsState : Obligations.IdleEngineKeepsState := by
  unfold Obligations.IdleEngineKeepsState
  intro s
  refine ⟨step_nil, fun e rest hin hrst hvalid hrsp hoffer => ?_⟩
  have hkept := breaksHandshake_none hoffer e
  refine ⟨_, step_of_hold hin hrst hkept (acceptsAt_of_not_valid s hvalid), holdEdge_h _ _, holdEdge_buf _ _,
    holdEdge_len _ _, holdEdge_phase _ _, holdEdge_cause _ _, ?_⟩
  obtain ⟨hd, -, -⟩ | ⟨-, hr, hdelivered⟩ := holdEdge_cases e { s with inputs := rest }
  · exact absurd hrsp (deliversAt_iff.1 hd).2.1
  · exact ⟨hr.trans hrsp, hdelivered, holdEdge_accepted _ _, holdEdge_seed _ _, holdEdge_inputs _ _⟩

/-! ## Offer, latency and delivery (R61, R187) -/

/-- A hold at an edge that offers no word and delivers nothing only brings the response nearer (R61 item 5). -/
theorem step_of_waiting {s : State} {e : Edge} {rest : List Edge} {n : Nat} (hin : s.inputs = e :: rest)
    (hrst : e.rst = false) (hvalid : e.cmdValid = false) (hoffer : s.offer = none) (hwait : s.wait = n + 1) :
    step s = .next { s with inputs := rest, wait := n } := by
  have hdelivers : deliversAt { s with inputs := rest } e = false := by
    simp [deliversAt, rspValid, hwait]
  rw [step_of_hold hin hrst (breaksHandshake_none hoffer e) (acceptsAt_of_not_valid s hvalid), holdEdge, hdelivers]
  simp [passEdge, hvalid, hoffer, hwait]

/-- A hold at an edge that offers no word and takes a ready response delivers it (R61 item 2). -/
theorem step_of_delivery {s : State} {e : Edge} {rest : List Edge} {r : Response} (hin : s.inputs = e :: rest)
    (hrst : e.rst = false) (hvalid : e.cmdValid = false) (hready : e.rspReady = true) (hoffer : s.offer = none)
    (hr : s.rsp = some r) (hwait : s.wait = 0) :
    step s = .next (deliver { s with inputs := rest }) := by
  have hdelivers : deliversAt { s with inputs := rest } e = true := by
    simp [deliversAt_iff, hready, hr, hwait, hrst]
  rw [step_of_hold hin hrst (breaksHandshake_none hoffer e) (acceptsAt_of_not_valid s hvalid), holdEdge,
    if_pos hdelivers]
  simp [passEdge, hvalid, hoffer, hwait]

theorem run_of_step {s t : State} (k : Nat) (h : step s = .next t) :
    Host.Core.run Sys2Proof.core (k + 1) s = Host.Core.run Sys2Proof.core k t :=
  run_of_next (M := Sys2Proof.core) k h

/-- From an outstanding response, the edges of its wait and an edge that takes it deliver it (R61). -/
theorem run_until_delivery {es : List Edge} {last : Edge} {rest : List Edge} {s : State} {r : Response}
    (hin : s.inputs = es ++ last :: rest) (hwait : s.wait = es.length) (hr : s.rsp = some r) (hoffer : s.offer = none)
    (hes : ∀ e ∈ es, e.rst = false ∧ e.cmdValid = false) (hrst : last.rst = false) (hvalid : last.cmdValid = false)
    (hready : last.rspReady = true) :
    Host.Core.run Sys2Proof.core (es.length + 1) s = .next (deliver { s with inputs := rest, wait := 0 }) := by
  induction es generalizing s with
  | nil =>
    have hzero : s.wait = 0 := hwait
    rw [run_of_step _ (step_of_delivery hin hrst hvalid hready hoffer hr hzero), ← hzero]
    rfl
  | cons e es ih =>
    obtain ⟨herst, hevalid⟩ := hes e List.mem_cons_self
    rw [List.length_cons, run_of_step _ (step_of_waiting hin herst hevalid hoffer hwait)]
    exact ih (s := { s with inputs := es ++ last :: rest, wait := es.length }) rfl rfl hr hoffer
      fun e' he' => hes e' (List.mem_cons_of_mem e he')

/-- An accepted word does to the state whose port has taken it what it does to the state itself, and leaves
that port (R80). -/
theorem runWord_acceptCommand (w : CmdWord) (s : State) (rest : List Edge) :
    runWord w (acceptCommand w { s with inputs := rest }) =
      andThen (runWord w s) fun t => .next (t.withPort (acceptCommand w { s with inputs := rest })) :=
  portBlind_runWord w s (acceptCommand w { s with inputs := rest })

/-- Settles O12: the word runs behind the port that took it, and the edges of its latency lead to its delivery. -/
theorem portRunIsTransaction : Obligations.PortRunIsTransaction := by
  unfold Obligations.PortRunIsTransaction
  intro s w ready es last rest hrsp hoffer hin hlatency hes hrst hvalid hready
  have hstep := step_of_offer hrsp hoffer hin
  rw [runWord_acceptCommand] at hstep
  rw [transact]
  cases hrun : runWord w s with
  | fault r =>
    rw [hrun] at hstep
    exact run_of_fault (M := Sys2Proof.core) _ hstep
  | refused r =>
    rw [hrun] at hstep
    exact run_of_refused (M := Sys2Proof.core) _ hstep
  | next t =>
    rw [hrun] at hstep
    obtain ⟨r, hr⟩ := runWord_rsp hrun
    obtain ⟨-, -, -, hseed, -, hdelivered⟩ := runWord_samePort hrun
    let u := t.withPort (acceptCommand w { s with inputs := es ++ last :: rest })
    have hdelivery := run_until_delivery (s := u) rfl hlatency.symm hr rfl hes hrst hvalid hready
    have hend : deliver { u with inputs := rest, wait := 0 } =
        { deliver t with inputs := rest, offer := none, wait := 0, accepted := s.accepted + 1 } := by
      simp [u, deliver, hseed, hdelivered]
    exact (run_of_step _ hstep).trans (hdelivery.trans (congrArg Host.Outcome.next hend))

/-! ## The response signals (R60, R67) -/

/-- Settles O51: while `rsp_valid` is high the signals are those of the outstanding response. -/
theorem responseSignalsCarryCodes : Obligations.ResponseSignalsCarryCodes := by
  unfold Obligations.ResponseSignalsCarryCodes
  intro s e
  refine ⟨rspValid_iff, fun r hvalid hr => ⟨?_, ?_⟩⟩
  · rw [rspKindSignal, if_pos hvalid, hr]
    rfl
  · rw [rspDataSignal, if_pos hvalid, hr]
    rfl

end Sys2Proof.Machine
end

section
/-! PROOFS. What a word writes: faults are precise (R151, R155), the writers of PHASE and CAUSE (R27, R28), and the
digest in FINALIZED (R23). -/

namespace Sys2Proof.Machine

/-- A pushed byte keeps PHASE and CAUSE (R81). -/
theorem pushByte_phase_cause {b : Byte} {s t : State} (h : pushByte b s = .next t) :
    t.phase = s.phase ∧ t.cause = s.cause := by
  rw [pushByte_frame h]
  exact ⟨rfl, rfl⟩

theorem pushBytes_cause {bs : List Byte} {s t : State} (h : pushBytes bs s = .next t) : t.cause = s.cause := by
  rw [pushBytes_frame h]

/-- Who writes PHASE and CAUSE: a fault taken outside FAULTED, INIT, FINISH in ACCUMULATING, or nobody (R27, R28). -/
theorem runWord_phase_cases {w : CmdWord} {s t : State} (h : runWord w s = .next t) :
    (s.phase ≠ .faulted ∧ ∃ c, t = raiseFault c s) ∨
    (t.cause = s.cause ∧ decode w = .instr .init ∧ t.phase = .accumulating) ∨
    (t.cause = s.cause ∧ decode w = .instr .finish ∧ s.phase = .accumulating ∧ t.phase = .finalized) ∨
    (t.cause = s.cause ∧ t.phase = s.phase) := by
  obtain ⟨-, rfl⟩ | ⟨-, hw, rfl⟩ | ⟨hs, c, rfl⟩ | ⟨-, -, b, m, -, hm, rfl⟩ | ⟨hp, m, hw, hm, rfl⟩ | ⟨k, x, -, rfl⟩ :=
    runWord_cases h
  · exact .inr (.inr (.inr ⟨rfl, rfl⟩))
  · exact .inr (.inl ⟨rfl, hw, rfl⟩)
  · exact .inl ⟨hs, c, rfl⟩
  · obtain ⟨hphase, hcause⟩ := pushByte_phase_cause hm
    exact .inr (.inr (.inr ⟨hcause, hphase⟩))
  · have hcause : m.cause = s.cause := pushBytes_cause hm
    exact .inr (.inr (.inl ⟨hcause, hw, hp, rfl⟩))
  · exact .inr (.inr (.inr ⟨rfl, rfl⟩))

/-- Settles O22: of the writers of PHASE only a fault sets FAULTED, and it is one field change of the old state. -/
theorem faultsArePrecise : Obligations.FaultsArePrecise := by
  unfold Obligations.FaultsArePrecise
  intro w s t hs h ht
  obtain ⟨-, c, rfl⟩ | ⟨-, -, hp⟩ | ⟨-, -, -, hp⟩ | ⟨-, hp⟩ := runWord_phase_cases h
  · exact ⟨causeCode c, causeCode_mem c, rfl⟩
  · simp [hp] at ht
  · simp [hp] at ht
  · exact absurd (hp.symm.trans ht) hs

/-- Settles O26, by the writers of PHASE and CAUSE. -/
theorem phaseAndCauseWriters : Obligations.PhaseAndCauseWriters := by
  unfold Obligations.PhaseAndCauseWriters
  intro w s t h
  obtain ⟨hs, c, rfl⟩ | ⟨hc, hw, hp⟩ | ⟨hc, hw, hs, hp⟩ | ⟨hc, hp⟩ := runWord_phase_cases h
  · exact ⟨fun _ => .inr (.inr ⟨hs, rfl⟩), fun _ => ⟨hs, rfl⟩⟩
  · exact ⟨fun _ => .inl ⟨hw, hp⟩, fun hne => absurd hc hne⟩
  · exact ⟨fun _ => .inr (.inl ⟨hw, hs, hp⟩), fun hne => absurd hc hne⟩
  · exact ⟨fun hne => absurd hp hne, fun hne => absurd hc hne⟩

/-- In FINALIZED no word but INIT changes H: PUSH and FINISH take fault 2 there (R23). -/
theorem runWord_keeps_digest {w : CmdWord} {s t : State} (hs : s.phase = .finalized) (h : runWord w s = .next t) :
    t.h = s.h ∨ decode w = .instr .init := by
  obtain ⟨-, rfl⟩ | ⟨-, hw, -⟩ | ⟨-, c, rfl⟩ | ⟨hp, -⟩ | ⟨hp, -⟩ | ⟨k, x, -, rfl⟩ := runWord_cases h
  · exact .inl rfl
  · exact .inr hw
  · exact .inl rfl
  · simp [hs] at hp
  · simp [hs] at hp
  · exact .inl rfl

/-- Settles O27: an edge is a reset, a hold, which keeps H, or an accepted word. -/
theorem digestStaysUntilInitOrReset : Obligations.DigestStaysUntilInitOrReset := by
  unfold Obligations.DigestStaysUntilInitOrReset
  intro s t hs ht
  cases hin : s.inputs with
  | nil =>
    rw [step_nil hin] at ht
    cases ht
    exact .inl rfl
  | cons e rest =>
    rw [step_cons hin] at ht
    obtain ⟨hrst, -⟩ | ⟨-, -, hc⟩ | ⟨-, -, haccepts, hc⟩ | ⟨-, -, -, hc⟩ := clockEdge_cases e { s with inputs := rest }
    · exact .inr ⟨e, rest, rfl, .inl hrst⟩
    · rw [hc] at ht
      cases ht
    · rw [hc] at ht
      obtain hh | hinit := runWord_keeps_digest (s := acceptCommand e.cmdWord { s with inputs := rest }) hs ht
      · exact .inl hh
      · exact .inr ⟨e, rest, rfl, .inr ⟨haccepts, hinit⟩⟩
    · rw [hc] at ht
      cases ht
      exact .inl (holdEdge_h _ _)

end Sys2Proof.Machine
end

section
/-! PROOFS. Several engines: their steps commute, and each starts in the reset state with its own seed (R54, R162). -/

namespace Sys2Proof.Machine

/-- Replacing the states of two engines in either order gives the same system. -/
theorem set_comm_of_ne {n : Nat} (sys : Engines n) {j k : Fin n} (t u : State) (hjk : j ≠ k) :
    (sys.set j t).set k u = (sys.set k u).set j t :=
  Vector.set_comm t u fun h => hjk (Fin.ext h)

/-- Settles O48: each engine's step reads and writes its own state alone. -/
theorem engineStepsCommute : Obligations.EngineStepsCommute := by
  unfold Obligations.EngineStepsCommute
  intro n j k sys a b hjk ha hb
  obtain ⟨t, ht, rfl⟩ := stepEngine_eq_next.1 ha
  obtain ⟨u, hu, rfl⟩ := stepEngine_eq_next.1 hb
  refine ⟨(sys.set j t).set k u, stepEngine_eq_next.2 ⟨u, ?_, rfl⟩, stepEngine_eq_next.2 ⟨t, ?_, ?_⟩⟩
  · rw [get_set_other sys t hjk.symm, hu]
  · rw [get_set_other sys u hjk, ht]
  · exact set_comm_of_ne sys t u hjk

/-- A clock edge keeps the seed, a reset too (R162). -/
theorem clockEdge_seed {e : Edge} {s t : State} (h : clockEdge e s = .next t) : t.seed = s.seed := by
  obtain ⟨-, hc⟩ | ⟨-, -, hc⟩ | ⟨-, -, -, hc⟩ | ⟨-, -, -, hc⟩ := clockEdge_cases e s <;> rw [hc] at h
  · cases h
    rfl
  · cases h
  · obtain ⟨-, -, -, hseed, -, -⟩ := runWord_samePort h
    exact hseed
  · cases h
    exact holdEdge_seed e s

theorem step_seed {s t : State} (h : step s = .next t) : t.seed = s.seed :=
  step_induction (P := fun u => u.seed = s.seed) rfl h (fun _ hu => hu)
    fun _ _ _ hu hv => (clockEdge_seed hv).trans hu

/-- Settles O52: the seeds are written when the system is made, and no step writes one. -/
theorem enginesStartInResetState : Obligations.EnginesStartInResetState := by
  unfold Obligations.EnginesStartInResetState
  refine ⟨fun k => by simp [enginesReset, Vector.get_eq_getElem], fun n k sys sys' h j => ?_⟩
  obtain ⟨t, ht, rfl⟩ := stepEngine_eq_next.1 h
  by_cases hj : j = k
  · rw [hj, get_set_same, step_seed ht]
  · rw [get_set_other sys t hj]

end Sys2Proof.Machine
end

section
/-! PROOFS. The constant tables are the fraction bits of roots of primes (R22, R116). -/

namespace Sys2Proof.Machine

/-- Settles O46, by exact arithmetic on the 64 primes below 312, table by table. -/
theorem constantTablesAreRoots : Obligations.ConstantTablesAreRoots := by
  unfold Obligations.ConstantTablesAreRoots
  refine ⟨?_, ?_, ?_, ?_⟩
  · decide +kernel
  · decide +kernel
  · decide +kernel
  · decide +kernel

end Sys2Proof.Machine
end

section
/-! PROOFS. The layout of the padding and of the length field (R44, R85). -/

namespace Sys2Proof.Machine

/-! ## The length field (R44) -/

theorem be64Bytes_getElem (v : BitVec 64) {k : Nat} (hk : k < (be64Bytes v).length) :
    (be64Bytes v)[k] = v.extractLsb' (56 - 8 * k) 8 := by
  simp [be64Bytes]

/-- Four neighbouring bytes of a 64-bit value make the 32 bits they cover (R14). -/
theorem be32_extract (v : BitVec 64) (i : Nat) :
    be32 (v.extractLsb' (i + 24) 8) (v.extractLsb' (i + 16) 8) (v.extractLsb' (i + 8) 8) (v.extractLsb' i 8) =
      v.extractLsb' i 32 := by
  have hhigh : v.extractLsb' (i + 24) 8 ++ v.extractLsb' (i + 16) 8 = v.extractLsb' (i + 16) 16 :=
    BitVec.extractLsb'_append_extractLsb'_eq_extractLsb' rfl
  have hmid : v.extractLsb' (i + 16) 16 ++ v.extractLsb' (i + 8) 8 = v.extractLsb' (i + 8) 24 :=
    BitVec.extractLsb'_append_extractLsb'_eq_extractLsb' rfl
  rw [be32, hhigh, hmid]
  exact BitVec.extractLsb'_append_extractLsb'_eq_extractLsb' rfl

/-- Behind 56 bytes the slots 56 to 63 hold the bytes of the length field (R44). -/
theorem lengthField_getElem (v : BitVec 64) {front : List Byte} (h : front.length = 56) {i : Nat} (hlow : 56 ≤ i)
    (hlt : i < (front ++ be64Bytes v).length) : (front ++ be64Bytes v)[i] = v.extractLsb' (504 - 8 * i) 8 := by
  have hplace : 56 - 8 * (i - front.length) = 504 - 8 * i := by omega
  rw [List.getElem_append_right (by omega), be64Bytes_getElem, hplace]

/-- Settles O45: the words 14 and 15 of a block are made of the bytes 56 to 63, which are those of the length. -/
theorem lengthFieldBigEndian : Obligations.LengthFieldBigEndian := by
  unfold Obligations.LengthFieldBigEndian
  intro v front h
  have hlen : (front ++ be64Bytes v).length = 64 := by simp [h]
  refine ⟨fun k hk => ?_, ?_, ?_⟩
  · have hplace : 504 - 8 * (56 + k) = 56 - 8 * k := by omega
    rw [List.getElem?_eq_getElem (by omega), lengthField_getElem v h (by omega), hplace]
  · rw [blockWord_joinBytes hlen (by omega)]
    iterate 4 rw [lengthField_getElem v h (by omega)]
    exact be32_extract v 32
  · rw [blockWord_joinBytes hlen (by omega)]
    iterate 4 rw [lengthField_getElem v h (by omega)]
    exact be32_extract v 0

/-! ## The padding (R85) -/

@[simp] theorem blocksOf_length (bs : List Byte) : (blocksOf bs).length = bs.length / 64 := by
  simp [blocksOf, blockBytes]

/-- Behind its 0x80 the padding has z zeros, and its last eight bytes are the length field (R85). -/
theorem padding_eq_append (n : Nat) : padding n =
    (0x80 :: List.replicate (paddingZeros n) 0x00) ++ be64Bytes (BitVec.ofNat 64 (8 * n)) := rfl

theorem padding_zero_getElem? (n : Nat) {k : Nat} (hlow : 0 < k) (hhigh : k ≤ paddingZeros n) :
    (padding n)[k]? = some 0x00 := by
  obtain ⟨i, rfl⟩ := Nat.exists_eq_add_of_le' hlow
  rw [padding_eq_append, List.getElem?_append_left (by simp; omega), List.getElem?_cons_succ,
    List.getElem?_replicate_of_lt (by omega)]

/-- Settles O36: arithmetic on n mod 64 for the lengths, and the parts of the padding for the bytes. -/
theorem paddingLayout : Obligations.PaddingLayout := by
  unfold Obligations.PaddingLayout
  intro n waiting hwaiting p z
  have hz : z = (119 - n % 64) % 64 := rfl
  have hlen : p.length = n % 64 + 9 + z := by
    rw [List.length_append, padding_length, hwaiting, Nat.add_assoc]
  have hblocks : (blocksOf p).length = p.length / 64 := blocksOf_length p
  refine ⟨by omega, hlen, by omega, fun k hk hle => by omega, ?_, by omega, ?_, fun k hlow hhigh => ?_, ?_⟩
  · split <;> omega
  · rw [← hwaiting, List.getElem?_append_right le_rfl, Nat.sub_self]
    rfl
  · rw [List.getElem?_append_right (by omega)]
    exact padding_zero_getElem? n (by omega) (by omega)
  · have hfront : p.length - 8 = (waiting ++ 0x80 :: List.replicate (paddingZeros n) 0x00).length := by
      rw [hlen, List.length_append, List.length_cons, List.length_replicate, hwaiting]
      omega
    have hp : p = (waiting ++ 0x80 :: List.replicate (paddingZeros n) 0x00) ++
        be64Bytes (BitVec.ofNat 64 (8 * n)) := by
      rw [List.append_assoc]
      rfl
    rw [hfront, hp, List.drop_left]

end Sys2Proof.Machine
end

section
/-! PROOFS. Messages in transactions: the pushes fold whole blocks, FINISH makes the digest, and conforming use never
faults (R86 to R89). READ_DIGEST (R134). -/

namespace Sys2Proof.Machine

/-! ## Folding blocks (R87) -/

/-- A run of whole blocks is folded before what follows it. -/
theorem foldBlocks_append_whole {as : List Byte} (x : Words8) (bs : List Byte) (h : as.length % 64 = 0) :
    foldBlocks x (as ++ bs) = foldBlocks (foldBlocks x as) bs := by
  obtain ⟨k, hk⟩ : ∃ k, as.length = 64 * k := ⟨as.length / 64, by omega⟩
  induction k generalizing x as with
  | zero =>
    have hnil : as = [] := List.length_eq_zero_iff.1 hk
    rw [hnil, List.nil_append, foldBlocks_of_lt (bs := []) x (by simp)]
  | succ k ih =>
    have htake : (as.take 64).length = 64 := by rw [List.length_take]; omega
    have hdrop : (as.drop 64).length = 64 * k := by rw [List.length_drop]; omega
    have hsplit (y : Words8) (cs : List Byte) :
        foldBlocks y (as ++ cs) = foldBlocks (compress y (joinBytes (as.take 64))) (as.drop 64 ++ cs) := by
      rw [← foldBlocks_append y _ htake, ← List.append_assoc, List.take_append_drop]
    have hself := hsplit x []
    rw [List.append_nil, List.append_nil] at hself
    rw [hsplit, hself]
    exact ih _ (by omega) hdrop

/-- What of a byte sequence is left behind its whole blocks (R89). -/
def blockTail (bs : List Byte) : List Byte := bs.drop (64 * (bs.length / 64))

/-- Folding on over the blocks of the tail and what follows is folding over everything (R89). -/
theorem foldBlocks_blockTail (x : Words8) (bs cs : List Byte) :
    foldBlocks (foldBlocks x bs) (blockTail bs ++ cs) = foldBlocks x (bs ++ cs) := by
  have hwhole : (bs.take (64 * (bs.length / 64))).length % 64 = 0 := by rw [List.length_take]; omega
  have hsplit : bs.take (64 * (bs.length / 64)) ++ blockTail bs = bs := List.take_append_drop _ _
  have hshort : (blockTail bs).length < 64 := by rw [blockTail, List.length_drop]; omega
  have hfold : foldBlocks x bs = foldBlocks x (bs.take (64 * (bs.length / 64))) := by
    conv_lhs => rw [← hsplit, foldBlocks_append_whole x _ hwhole, foldBlocks_of_lt _ hshort]
  rw [hfold, ← foldBlocks_append_whole x _ hwhole, ← List.append_assoc, hsplit]

theorem blockTail_length (bs : List Byte) : (blockTail bs).length = bs.length % 64 := by
  rw [blockTail, List.length_drop]
  omega

theorem blockTail_append (bs cs : List Byte) : blockTail (blockTail bs ++ cs) = blockTail (bs ++ cs) := by
  have hlen : 64 * ((bs ++ cs).length / 64) = 64 * (bs.length / 64) + 64 * ((blockTail bs ++ cs).length / 64) := by
    rw [List.length_append, List.length_append, blockTail_length]
    omega
  have hle : 64 * (bs.length / 64) ≤ bs.length := by omega
  conv_rhs => rw [blockTail, hlen, ← List.drop_drop, List.drop_append_of_le_length hle]
  rfl

/-! ## A message in the engine (R24, R89) -/

/-- The engine is accumulating, and exactly the bytes m have been pushed since the last INIT or reset: H is the fold
of their whole blocks, BUF holds the rest, LEN counts them (R24, R89). -/
structure Streamed (s : State) (m : List Byte) : Prop where
  phase : s.phase = .accumulating
  fold : s.h = foldBlocks ivRom m
  cells : s.buf = cellsFrom 0 (blockTail m)
  count : s.len = BitVec.ofNat 64 m.length

/-- A new context holds the empty message (R82, R180). -/
theorem streamed_nil {s : State} (hp : s.phase = .accumulating) (hh : s.h = ivRom) (hbuf : s.buf = [])
    (hlen : s.len = 0) : Streamed s [] where
  phase := hp
  fold := by rw [hh, foldBlocks_of_lt _ (by simp)]
  cells := hbuf
  count := hlen

theorem Streamed.holds {s : State} {m : List Byte} (h : Streamed s m) : Holds s (blockTail m) where
  cells := h.cells
  count := by rw [blockTail_length, h.count, BitVec.toNat_ofNat]; omega

theorem Streamed.len_toNat {s : State} {m : List Byte} (h : Streamed s m) (hm : m.length ≤ 2 ^ 61 - 1) :
    s.len.toNat = m.length := by
  rw [h.count, BitVec.toNat_ofNat]
  omega

/-- Pushing further bytes folds the whole blocks of the longer message (R81, R89). -/
theorem Streamed.pushBytes_eq {s : State} {m : List Byte} (h : Streamed s m) (ds : List Byte) :
    pushBytes ds s = .next { s with
      h := foldBlocks ivRom (m ++ ds)
      buf := cellsFrom 0 (blockTail (m ++ ds))
      len := BitVec.ofNat 64 (m ++ ds).length } := by
  have hlen : s.len + BitVec.ofNat 64 ds.length = BitVec.ofNat 64 (m ++ ds).length := by
    rw [h.count, List.length_append, BitVec.ofNat_add]
  rw [pushBytes_run ds h.holds, h.fold, foldBlocks_blockTail, hlen, ← blockTail_append m ds]
  rfl

/-- A PUSH transaction appends its byte to the message (R83). -/
theorem transact_push {s : State} {m : List Byte} (h : Streamed s m) (hm : m.length < 2 ^ 61 - 1) (b : Byte) :
    ∃ t, transact (encode (.push b)) s = .next t ∧ Streamed t (m ++ [b]) ∧ t.rsp = none := by
  have hroom : s.len.toNat < 2 ^ 61 - 1 := by rw [h.len_toNat (by omega)]; exact hm
  have hpush : pushByte b s = pushBytes [b] s := by rw [pushBytes_cons]; exact (andThen_pure _).symm
  rw [transact, runWord_encode, execPush_of_room h.phase hroom, hpush, h.pushBytes_eq [b]]
  exact ⟨_, rfl, ⟨h.phase, rfl, rfl, rfl⟩, rfl⟩

/-- The transactions of PUSH_ALL append its bytes to the message (R86). -/
theorem transactAll_pushAllWords {s : State} {m : List Byte} (h : Streamed s m) (ds : List Byte)
    (hlen : (m ++ ds).length ≤ 2 ^ 61 - 1) :
    ∃ t, transactAll (pushAllWords ds) s = .next t ∧ Streamed t (m ++ ds) := by
  induction ds generalizing s m with
  | nil => exact ⟨s, rfl, by rwa [List.append_nil]⟩
  | cons d ds ih =>
    have hm : m.length < 2 ^ 61 - 1 := by
      rw [List.length_append, List.length_cons] at hlen
      omega
    have hassoc : (m ++ [d]) ++ ds = m ++ d :: ds := by rw [List.append_assoc, List.singleton_append]
    obtain ⟨t, ht, hstreamed, -⟩ := transact_push h hm d
    obtain ⟨u, hu, hend⟩ := ih hstreamed (hassoc ▸ hlen)
    refine ⟨u, ?_, hassoc ▸ hend⟩
    rw [pushAllWords, List.map_cons, transactAll_cons, ht, andThen_next]
    exact hu

/-- An INIT transaction outside FAULTED starts the empty message (R82). -/
theorem transact_init {s : State} (h : s.phase ≠ .faulted) :
    ∃ t, transact (encode .init) s = .next t ∧ Streamed t [] ∧ t.rsp = none := by
  rw [transact, runWord_encode, execInit_of_serving h]
  exact ⟨_, rfl, streamed_nil rfl rfl rfl rfl, rfl⟩

/-- A FINISH transaction makes the digest of the message (R84, R87). -/
theorem transact_finish {s : State} {m : List Byte} (h : Streamed s m) (hm : m.length ≤ 2 ^ 61 - 1) :
    ∃ t, transact (encode .finish) s = .next t ∧ t.phase = .finalized ∧ t.h = digestOf m ∧
      t.len.toNat = m.length + 9 + paddingZeros m.length ∧ t.buf = [] ∧ t.rsp = none := by
  have hlen := h.len_toNat hm
  have hh : foldBlocks s.h (blockTail m ++ padding s.len.toNat) = digestOf m := by
    rw [hlen, h.fold, foldBlocks_blockTail]
    rfl
  rw [transact, runWord_encode, execFinish_run h.phase h.holds, hh, hlen]
  exact ⟨_, rfl, rfl, rfl, (padded_len_toNat hm).1, rfl, rfl⟩

/-- The two starts of a run, from reset or by INIT outside FAULTED, lead to the empty message with the port free. -/
theorem transactAll_start {start : List CmdWord} {s : State}
    (h : (start = [] ∧ s = State.reset) ∨ (start = [0x1000] ∧ s.phase ≠ .faulted)) :
    ∃ t, transactAll start s = .next t ∧ Streamed t [] ∧ t.rsp = none := by
  obtain ⟨rfl, rfl⟩ | ⟨rfl, hs⟩ := h
  · exact ⟨_, rfl, streamed_nil rfl rfl rfl rfl, rfl⟩
  · obtain ⟨t, ht, hstreamed, hrsp⟩ := transact_init hs
    exact ⟨t, by rw [transactAll_cons, show (0x1000 : CmdWord) = encode .init from rfl, ht]; rfl, hstreamed, hrsp⟩

/-- Settles O34: the pushes stream the message from the empty one. -/
theorem pushesFoldWholeBlocks : Obligations.PushesFoldWholeBlocks := by
  unfold Obligations.PushesFoldWholeBlocks
  intro m start s hm hstart
  obtain ⟨t, ht, hempty, -⟩ := transactAll_start hstart
  obtain ⟨u, hu, hstreamed⟩ := transactAll_pushAllWords hempty m hm
  refine ⟨u, ?_, hstreamed.phase, blocksOf_length m, hstreamed.fold, ?_, hstreamed.len_toNat hm⟩
  · rw [transactAll_append, ht, andThen_next, hu]
  · rw [bufferedBytes, hstreamed.cells, cellsFrom_bytes]
    rfl

/-- INIT, the bytes of a message and FINISH leave the digest of the message (R87). -/
theorem transactAll_hashWords {m : List Byte} {s : State} (hm : m.length ≤ 2 ^ 61 - 1) (hs : s.phase ≠ .faulted) :
    ∃ t, transactAll (hashWords m) s = .next t ∧ t.phase = .finalized ∧ t.h = digestOf m ∧
      t.len.toNat = m.length + 9 + paddingZeros m.length ∧ t.buf = [] := by
  obtain ⟨t, ht, hempty, -⟩ := transact_init hs
  obtain ⟨u, hu, hstreamed⟩ := transactAll_pushAllWords hempty m hm
  obtain ⟨v, hv, hphase, hh, hlen, hbuf, -⟩ := transact_finish hstreamed hm
  refine ⟨v, ?_, hphase, hh, hlen, hbuf⟩
  rw [hashWords, transactAll_cons, ht, andThen_next, transactAll_append, hu, andThen_next, transactAll_cons]
  exact congrArg (andThen · _) hv

/-- Settles O33, by INIT, the pushes and FINISH in turn. -/
theorem streamedDigestIsMerkleDamgard : Obligations.StreamedDigestIsMerkleDamgard := by
  unfold Obligations.StreamedDigestIsMerkleDamgard
  exact fun m s hm hs => transactAll_hashWords hm hs

/-- The words of PUSH_ALL groups are those of one group with all their bytes (R86). -/
theorem flatMap_pushAllWords (chunks : List (List Byte)) :
    chunks.flatMap pushAllWords = pushAllWords chunks.flatten := by
  rw [pushAllWords, List.map_flatten, List.flatMap_def]
  rfl

/-- Settles O35: the groups send the words of the whole message. -/
theorem chunkingDoesNotMatter : Obligations.ChunkingDoesNotMatter := by
  unfold Obligations.ChunkingDoesNotMatter
  intro chunks s hlen hs
  obtain ⟨t, ht, -, hh, -⟩ := transactAll_hashWords hlen hs
  refine ⟨t, ?_, hh⟩
  rw [flatMap_pushAllWords]
  exact ht

/-! ## Reading the digest (R130, R134) -/

/-- What GET answers in FINALIZED: the word its index selects, or ABSENT (R130). -/
def readoutResponse (x : Words8) (i : BitVec 8) : Response :=
  match wordAt x (indexOperand i) with
  | some w => ⟨.word, w⟩
  | none => ⟨.absent, 0⟩

theorem execGet_of_finalized {s : State} (h : s.phase = .finalized) (i : BitVec 8) :
    exec (.get i) s = .next { s with rsp := some (readoutResponse s.h i) } := by
  unfold readoutResponse
  cases hx : wordAt s.h (indexOperand i) with
  | some x => exact execGet_of_present h hx
  | none => exact execGet_of_absent h hx

theorem transact_get {s : State} (h : s.phase = .finalized) (i : BitVec 8) :
    transact (encode (.get i)) s =
      .next { s with rsp := none, delivered := s.delivered ++ [readoutResponse s.h i] } := by
  rw [transact, runWord_encode, execGet_of_finalized h]
  rfl

/-- In FINALIZED a run of GETs, at least one of them, delivers their answers in order and changes nothing else. -/
theorem transactAll_gets {s : State} (h : s.phase = .finalized) (i : BitVec 8) (is : List (BitVec 8)) :
    transactAll ((i :: is).map fun j => encode (.get j)) s =
      .next { s with rsp := none, delivered := s.delivered ++ (i :: is).map (readoutResponse s.h) } := by
  induction is generalizing s i with
  | nil => rw [List.map_singleton, transactAll_cons, transact_get h]; rfl
  | cons j js ih =>
    have hrest := ih (s := { s with rsp := none, delivered := s.delivered ++ [readoutResponse s.h i] }) h j
    rw [List.map_cons, transactAll_cons, transact_get h, andThen_next, hrest, List.append_assoc]
    rfl

/-- Settles O37: READ_DIGEST is the GETs of the indices 0 to 7, whose answers are the eight words. -/
theorem readDigestDeliversWords : Obligations.ReadDigestDeliversWords := by
  unfold Obligations.ReadDigestDeliversWords
  exact fun s hs => transactAll_gets hs 0 [1, 2, 3, 4, 5, 6, 7]

/-! ## Conforming use (R88) -/

/-- The engine as `conforms` tracks it, with no response outstanding: before a FINISH it holds a message of n bytes,
after it a digest (R88). -/
structure Tracks (done : Bool) (n : Nat) (s : State) : Prop where
  free : s.rsp = none
  message : done = false → ∃ m, m.length = n ∧ m.length ≤ 2 ^ 61 - 1 ∧ Streamed s m
  digest : done = true → s.phase = .finalized

theorem tracks_of_streamed {s : State} {m : List Byte} (hfree : s.rsp = none) (hm : m.length ≤ 2 ^ 61 - 1)
    (h : Streamed s m) : Tracks false m.length s where
  free := hfree
  message _ := ⟨m, rfl, hm, h⟩
  digest hd := by cases hd

theorem tracks_of_finalized {s : State} (n : Nat) (hfree : s.rsp = none) (hp : s.phase = .finalized) :
    Tracks true n s where
  free := hfree
  message hd := by cases hd
  digest _ := hp

theorem Tracks.serving {done : Bool} {n : Nat} {s : State} (h : Tracks done n s) : s.phase ≠ .faulted := by
  cases done with
  | true => rw [h.digest rfl]; simp
  | false =>
    obtain ⟨m, -, -, hstreamed⟩ := h.message rfl
    rw [hstreamed.phase]
    simp

/-- A response and its delivery do not change what is tracked. -/
theorem Tracks.responded {done : Bool} {n : Nat} {s : State} (h : Tracks done n s) (r : Response) :
    Tracks done n (deliver { s with rsp := some r }) where
  free := rfl
  message hd := by
    obtain ⟨m, hn, hm, hstreamed⟩ := h.message hd
    exact ⟨m, hn, hm, hstreamed.phase, hstreamed.fold, hstreamed.cells, hstreamed.count⟩
  digest hd := h.digest hd

/-- A command that conforms is answered, and the engine stays as tracked (R88). -/
theorem transact_conforming {done : Bool} {n : Nat} {s : State} {i : Instr} {is : List Instr} (h : Tracks done n s)
    (hconforms : conforms done n (i :: is) = true) :
    ∃ t done' n', transact (encode i) s = .next t ∧ Tracks done' n' t ∧ conforms done' n' is = true := by
  cases i with
  | init =>
    obtain ⟨t, ht, hstreamed, hfree⟩ := transact_init h.serving
    exact ⟨t, false, 0, ht, tracks_of_streamed hfree (by simp) hstreamed, hconforms⟩
  | push b =>
    simp only [conforms, Bool.and_eq_true, Bool.not_eq_true', decide_eq_true_eq] at hconforms
    obtain ⟨⟨hdone, hn⟩, hrest⟩ := hconforms
    obtain ⟨m, rfl, -, hstreamed⟩ := h.message hdone
    obtain ⟨t, ht, hnext, hfree⟩ := transact_push hstreamed hn b
    have hlen : (m ++ [b]).length = m.length + 1 := by simp
    refine ⟨t, false, m.length + 1, ht, ?_, hdone ▸ hrest⟩
    exact hlen ▸ tracks_of_streamed hfree (by omega) hnext
  | finish =>
    simp only [conforms, Bool.and_eq_true, Bool.not_eq_true'] at hconforms
    obtain ⟨hdone, hrest⟩ := hconforms
    obtain ⟨m, -, hm, hstreamed⟩ := h.message hdone
    obtain ⟨t, ht, hphase, -, -, -, hfree⟩ := transact_finish hstreamed hm
    exact ⟨t, true, n, ht, tracks_of_finalized n hfree hphase, hrest⟩
  | get j =>
    simp only [conforms, Bool.and_eq_true] at hconforms
    obtain ⟨hdone, hrest⟩ := hconforms
    exact ⟨_, done, n, transact_get (h.digest hdone) j, h.responded (readoutResponse s.h j), hrest⟩
  | stat =>
    have hstat : transact (encode .stat) s = .next (deliver (respond .word (statusWord s.cause s.phase) s)) := by
      rw [transact, runWord_encode, execStat_eq, andThen_next]
    exact ⟨_, done, n, hstat, h.responded _, hconforms⟩

/-- A conforming sequence runs through and ends good and idle (R88, R188). -/
theorem transactAll_conforming {done : Bool} {n : Nat} {s : State} {is : List Instr} (h : Tracks done n s)
    (hconforms : conforms done n is = true) :
    ∃ t, transactAll (is.map encode) s = .next t ∧ t.good = true ∧ t.idle = true := by
  induction is generalizing done n s with
  | nil => exact ⟨s, rfl, by simpa [State.good] using h.serving, by simp [State.idle, h.free]⟩
  | cons i is ih =>
    obtain ⟨t, done', n', ht, htracks, hrest⟩ := transact_conforming h hconforms
    obtain ⟨u, hu, hend⟩ := ih htracks hrest
    refine ⟨u, ?_, hend⟩
    rw [List.map_cons, transactAll_cons, ht, andThen_next, hu]

/-- Settles O38: a start leads to the empty message, and every conforming command keeps the engine as tracked. -/
theorem conformingUseNeverFaults : Obligations.ConformingUseNeverFaults := by
  unfold Obligations.ConformingUseNeverFaults
  intro is start s hconforms hstart
  obtain ⟨t, ht, hempty, hfree⟩ := transactAll_start hstart
  obtain ⟨u, hu, hend⟩ := transactAll_conforming (tracks_of_streamed hfree (by simp) hempty) hconforms
  refine ⟨u, ?_, hend⟩
  rw [transactAll_append, ht, andThen_next, hu]

end Sys2Proof.Machine
end
